-- ==== Sys2Proof/Word.lean ====
section
/-! DEFINITION. The word types of the engine: every quantity is unsigned (00_scope.md rule R7).
Addresses are not here: their width `ADDR_W` is an open parameter, they are added and compared and never
wrap (20_memory.md rule R62 faults instead), so an address is a `Nat`. -/

namespace Sys2Proof

/-- A byte, 8 bits (rule R7). -/
abbrev Byte := BitVec 8

/-- `u16` (rule R7): request fields, lengths, byte counts. -/
abbrev HWord := BitVec 16

/-- A USB device address, 7 bits (10_state.md rule R29). -/
abbrev DevAddr := BitVec 7

/-- An endpoint number, 0 to 15 (30_encoding.md rule R84). -/
abbrev EpNum := BitVec 4

end Sys2Proof
end

