-- ==== Sys2Proof/Config.lean ====
section
/-! DEFINITION. The parameters of the engine (00_scope.md rule R6), the behavioural parameters of
93_implementation_defined.md, and the one free value. A `Config` is carried in State as a constant, so that
every statement about every state is a statement about every configuration (log entry 2). -/

namespace Sys2Proof

/-- `P`, the EP0 maximum packet size (rule R6: fixed at 64). -/
def maxPacket : Nat := 64

/-- Size in bytes of `REPLY` (rule R6, decision D25). -/
def replySize : Nat := 8

/-- One entry of the Descriptor Table (30_encoding.md rule R86): `data` is an address. -/
structure DescEntry where
  selector : HWord
  data : Nat
  length : HWord
deriving DecidableEq, Repr

/-- `STATUS_OUT_ARM` (93 U8): the command emitted on entering `WaitStatusOut`. -/
inductive StatusOutArm where
  | armOut
  | armSetup
  | noCommand
deriving DecidableEq, Repr

/-- `FEATURE_HALT_EFFECT` (93 U11): what a valid CLEAR_FEATURE or SET_FEATURE does. -/
inductive FeatureHaltEffect where
  | acknowledge
  | stallOnSet
  | alwaysError
deriving DecidableEq, Repr

/-- `ZERO_LEN_SEND` (93 U2): what `send` does when the clamped length is 0. -/
inductive ZeroLenSend where
  | oneZlp
  | straightToStatus
deriving DecidableEq, Repr

/-- The parameters of rule R6 that are not fixed, then the five behavioural parameters of
93_implementation_defined.md (U8, U11, U10, U5, U2). -/
structure Config where
  addrW : Nat
  align : Nat
  scratchBase : Nat
  replyBase : Nat
  rxbufBase : Nat
  rxBufSize : Nat
  descTable : List DescEntry
  msftVendorCode : Byte
  msftIndex : HWord
  msOsData : Nat
  msOsLength : HWord
  deviceStatus : HWord
  statusOutArm : StatusOutArm
  featureHaltEffect : FeatureHaltEffect
  epIndexMask : HWord
  stageLongUnaligned : Bool
  zeroLenSend : ZeroLenSend
deriving DecidableEq, Repr

/-- The example instantiation of 95_test_vectors.md section 0, with the defaults of
93_implementation_defined.md. It "says nothing about the hardware" (DESIGN CHOICE, log entry 2). -/
def Config.example95 : Config where
  addrW := 32
  align := 4
  scratchBase := 0x20000000
  replyBase := 0x20000040
  rxbufBase := 0x20000100
  rxBufSize := 1024
  descTable :=
    [⟨0x0100#16, 0x1000, 18#16⟩, ⟨0x0200#16, 0x1100, 64#16⟩, ⟨0x2100#16, 0x1300, 130#16⟩,
     ⟨0x0300#16, 0x1050, 4#16⟩, ⟨0x0301#16, 0x1041, 0#16⟩, ⟨0x0302#16, 0x1060, 0#16⟩]
  msftVendorCode := 0x7E#8
  msftIndex := 0x0004#16
  msOsData := 0x1200
  msOsLength := 40#16
  deviceStatus := 0x0000#16
  statusOutArm := .armOut
  featureHaltEffect := .acknowledge
  epIndexMask := 0xFFFF#16
  stageLongUnaligned := true
  zeroLenSend := .oneZlp

/-- The five behavioural parameters stand at the spec's own decisions D6, D9, D10, D19, D20
(92_eei_decisions.md): what the numbered rules R55, R112, R123, R164 to R166 say as written. -/
def Config.decided (c : Config) : Prop :=
  c.statusOutArm = .armOut ∧ c.featureHaltEffect = .acknowledge ∧ c.epIndexMask = 0xFFFF#16 ∧
    c.stageLongUnaligned = true ∧ c.zeroLenSend = .oneZlp

/-- FREE VALUE (93 U5, log entry 9): byte number `k` of all the bytes the transport has sent from an IN
packet armed at an unaligned address; "what the transport sends is then `any value`". -/
opaque Config.unalignedDmaByte : Nat → Byte

end Sys2Proof
end

