-- ==== Sys2Proof/Syntax.lean ====
section
/-! DEFINITION. The syntax: SETUP records, the requests, the instructions (one constructor per row of
spec/opcode_table.json) and the events. "instruction = an event ...; for `SETUP`, the request selected by its
16-bit dispatch key" (00_scope.md rule R3). -/

namespace Sys2Proof

/-- A SETUP record: 8 bytes, `b0` first on the wire and at the lowest address (30_encoding.md rule R80). -/
structure Record where
  b0 : Byte
  b1 : Byte
  b2 : Byte
  b3 : Byte
  b4 : Byte
  b5 : Byte
  b6 : Byte
  b7 : Byte
deriving DecidableEq, Repr

/-- A request as decoded: the four 16-bit fields of rule R80; also the latched request `S.req`
(10_state.md rule R27). -/
structure Req where
  key : HWord
  value : HWord
  index : HWord
  length : HWord
deriving DecidableEq, Repr

/-- The fourteen requests the dispatcher knows (30_encoding.md rule R88). -/
inductive RequestKind where
  | setAddress
  | setConfiguration
  | getConfiguration
  | getStatusDevice
  | getStatusEndpoint
  | clearFeatureEndpoint
  | setFeatureEndpoint
  | getDescriptor
  | msOsDescriptor
  | dfuDnload
  | dfuGetstatus
  | dfuClrstatus
  | dfuGetstate
  | dfuAbort
deriving DecidableEq, Repr

/-- The instructions, one constructor per row of spec/opcode_table.json. A request carries the operands of
30_encoding.md rule R95; an unknown key carries its key too; the events carry the operands of rule R84. -/
inductive Instr where
  | setAddress (value index length : HWord)
  | setConfiguration (value index length : HWord)
  | getConfiguration (value index length : HWord)
  | getStatusDevice (value index length : HWord)
  | getStatusEndpoint (value index length : HWord)
  | clearFeatureEndpoint (value index length : HWord)
  | setFeatureEndpoint (value index length : HWord)
  | getDescriptor (value index length : HWord)
  | msOsDescriptor (value index length : HWord)
  | dfuDnload (value index length : HWord)
  | dfuGetstatus (value index length : HWord)
  | dfuClrstatus (value index length : HWord)
  | dfuGetstate (value index length : HWord)
  | dfuAbort (value index length : HWord)
  | unknownKey (key value index length : HWord)
  | eventSetup (recs : List Record)
  | eventInDone (ep : EpNum) (n : HWord)
  | eventOutDone (ep : EpNum) (n : HWord)
  | eventBusReset
deriving DecidableEq, Repr

/-- The four events, as the transport delivers them (30_encoding.md rule R84). -/
inductive Event where
  | setup (recs : List Record)
  | inDone (ep : EpNum) (n : HWord)
  | outDone (ep : EpNum) (n : HWord)
  | busReset
deriving DecidableEq, Repr

/-- The two formats of spec/opcode_table.json: `SETUP` rows are 8-byte records, `EVENT` rows are event codes. -/
inductive Format where
  | setup
  | event
deriving DecidableEq, Repr

end Sys2Proof
end

