-- ==== Sys2Proof/Decode.lean ====
section
/-! DEFINITION. Encodings: byte order (20_memory.md rule R51, 00_scope.md rule R8), the SETUP record
(30_encoding.md rule R80), the opcode map (rule R88), the decoder (rules R89, R90) and the encoder. The byte
layout of an event is this model's (the spec gives an event a two-bit code and no layout of its operands:
DESIGN CHOICE, log entry 7). -/

namespace Sys2Proof

/-! ### Byte order -/

/-- `le16(b0, b1)` is the `u16` `{b1, b0}` (rule R8). -/
def le16 (b0 b1 : Byte) : HWord := b1 ++ b0

/-- `v[7:0]`. -/
def loByte (v : HWord) : Byte := v.extractLsb' 0 8

/-- `v[15:8]`. -/
def hiByte (v : HWord) : Byte := v.extractLsb' 8 8

/-- `bytes_le16(v)` is `[v[7:0], v[15:8]]` (rule R8). -/
def bytesLe16 (v : HWord) : List Byte := [loByte v, hiByte v]

/-- The low `k` bytes of a number, least significant first: how the words of spec/opcode_table.json stand in
memory (`W = {b7, ..., b0}`, rule R80). -/
def bytesOfNat : Nat → Nat → List Byte
  | 0, _ => []
  | k + 1, w => BitVec.ofNat 8 w :: bytesOfNat k (w / 256)

/-! ### The SETUP record (rule R80) -/

/-- The eight bytes of a record, wire order. -/
def Record.bytes (r : Record) : List Byte := [r.b0, r.b1, r.b2, r.b3, r.b4, r.b5, r.b6, r.b7]

/-- `decode([b0..b7])` of rule R80: total. -/
def Record.req (r : Record) : Req where
  key := le16 r.b0 r.b1
  value := le16 r.b2 r.b3
  index := le16 r.b4 r.b5
  length := le16 r.b6 r.b7

/-- The record that stands for a request (30_encoding.md rule R93, the symbolic `SETUP` form). -/
def Req.record (q : Req) : Record where
  b0 := loByte q.key
  b1 := hiByte q.key
  b2 := loByte q.value
  b3 := hiByte q.value
  b4 := loByte q.index
  b5 := hiByte q.index
  b6 := loByte q.length
  b7 := hiByte q.length

/-- The record whose 64-bit word is `w` (rule R80: `W = {b7, b6, b5, b4, b3, b2, b1, b0}`). -/
def Record.ofWord (w : Nat) : Record where
  b0 := BitVec.ofNat 8 w
  b1 := BitVec.ofNat 8 (w / 0x100)
  b2 := BitVec.ofNat 8 (w / 0x10000)
  b3 := BitVec.ofNat 8 (w / 0x1000000)
  b4 := BitVec.ofNat 8 (w / 0x100000000)
  b5 := BitVec.ofNat 8 (w / 0x10000000000)
  b6 := BitVec.ofNat 8 (w / 0x1000000000000)
  b7 := BitVec.ofNat 8 (w / 0x100000000000000)

/-! ### The opcode map (rule R88) -/

/-- The dispatch key of each request (rule R88, `key = {bRequest, bmRequestType}`, rule R82). `vc` is
`MSFT_VENDOR_CODE`. -/
def RequestKind.key (vc : Byte) : RequestKind → HWord
  | .setAddress => 0x0500#16
  | .setConfiguration => 0x0900#16
  | .getConfiguration => 0x0880#16
  | .getStatusDevice => 0x0080#16
  | .getStatusEndpoint => 0x0082#16
  | .clearFeatureEndpoint => 0x0102#16
  | .setFeatureEndpoint => 0x0302#16
  | .getDescriptor => 0x0680#16
  | .msOsDescriptor => le16 0xC0#8 vc
  | .dfuDnload => 0x0121#16
  | .dfuGetstatus => 0x03A1#16
  | .dfuClrstatus => 0x0421#16
  | .dfuGetstate => 0x05A1#16
  | .dfuAbort => 0x0621#16

/-- The fourteen requests, in the order of rule R88. -/
def RequestKind.all : List RequestKind :=
  [.setAddress, .setConfiguration, .getConfiguration, .getStatusDevice, .getStatusEndpoint,
   .clearFeatureEndpoint, .setFeatureEndpoint, .getDescriptor, .msOsDescriptor, .dfuDnload,
   .dfuGetstatus, .dfuClrstatus, .dfuGetstate, .dfuAbort]

/-- Rule R89: compare the whole key with the fourteen keys. -/
def classify (vc : Byte) (key : HWord) : Option RequestKind :=
  RequestKind.all.find? (fun k => k.key vc == key)

/-- The instruction of a decoded request (rules R89, R90). -/
def Req.instr (vc : Byte) (q : Req) : Instr :=
  match classify vc q.key with
  | some .setAddress => .setAddress q.value q.index q.length
  | some .setConfiguration => .setConfiguration q.value q.index q.length
  | some .getConfiguration => .getConfiguration q.value q.index q.length
  | some .getStatusDevice => .getStatusDevice q.value q.index q.length
  | some .getStatusEndpoint => .getStatusEndpoint q.value q.index q.length
  | some .clearFeatureEndpoint => .clearFeatureEndpoint q.value q.index q.length
  | some .setFeatureEndpoint => .setFeatureEndpoint q.value q.index q.length
  | some .getDescriptor => .getDescriptor q.value q.index q.length
  | some .msOsDescriptor => .msOsDescriptor q.value q.index q.length
  | some .dfuDnload => .dfuDnload q.value q.index q.length
  | some .dfuGetstatus => .dfuGetstatus q.value q.index q.length
  | some .dfuClrstatus => .dfuClrstatus q.value q.index q.length
  | some .dfuGetstate => .dfuGetstate q.value q.index q.length
  | some .dfuAbort => .dfuAbort q.value q.index q.length
  | none => .unknownKey q.key q.value q.index q.length

/-- The instruction of a SETUP record. Total: "every 8-byte sequence decodes" (rule R80). -/
def decodeRecord (vc : Byte) (r : Record) : Instr := r.req.instr vc

/-- The instruction of an event. -/
def Event.instr : Event → Instr
  | .setup recs => .eventSetup recs
  | .inDone ep n => .eventInDone ep n
  | .outDone ep n => .eventOutDone ep n
  | .busReset => .eventBusReset

/-- The event of an event instruction; a request is no event of its own. -/
def Instr.event : Instr → Option Event
  | .eventSetup recs => some (.setup recs)
  | .eventInDone ep n => some (.inDone ep n)
  | .eventOutDone ep n => some (.outDone ep n)
  | .eventBusReset => some .busReset
  | .setAddress _ _ _ => none
  | .setConfiguration _ _ _ => none
  | .getConfiguration _ _ _ => none
  | .getStatusDevice _ _ _ => none
  | .getStatusEndpoint _ _ _ => none
  | .clearFeatureEndpoint _ _ _ => none
  | .setFeatureEndpoint _ _ _ => none
  | .getDescriptor _ _ _ => none
  | .msOsDescriptor _ _ _ => none
  | .dfuDnload _ _ _ => none
  | .dfuGetstatus _ _ _ => none
  | .dfuClrstatus _ _ _ => none
  | .dfuGetstate _ _ _ => none
  | .dfuAbort _ _ _ => none
  | .unknownKey _ _ _ _ => none

/-! ### The decoder -/

/-- Why bytes are no instruction. -/
inductive DecodeError where
  /-- The bytes end before the instruction does. Safe: nothing runs. -/
  | truncated
  /-- An event code above 3 (30_encoding.md rule R84: the codes are 0 to 3). Safe. -/
  | reservedEventCode
  /-- An endpoint number above 15 (rule R84). Safe. -/
  | reservedEndpoint
  /-- A SETUP event of more than three records (rule R81: it "cannot be formed"). Safe. -/
  | badRecordCount
deriving DecidableEq, Repr

/-- One record from the front of the bytes. -/
def takeRecord : List Byte → Option (Record × List Byte)
  | b0 :: b1 :: b2 :: b3 :: b4 :: b5 :: b6 :: b7 :: rest => some (⟨b0, b1, b2, b3, b4, b5, b6, b7⟩, rest)
  | _ => none

/-- `c` records from the front of the bytes, oldest first. -/
def takeRecords : Nat → List Byte → Option (List Record × List Byte)
  | 0, bs => some ([], bs)
  | c + 1, bs =>
    match takeRecord bs with
    | none => none
    | some (r, rest) =>
      match takeRecords c rest with
      | none => none
      | some (rs, rest') => some (r :: rs, rest')

/-- The operands of a completion: endpoint byte, then the byte count, low byte first. -/
def decodeCompletion (mk : EpNum → HWord → Instr) : List Byte → Except DecodeError (Instr × List Byte)
  | e :: lo :: hi :: rest =>
    if e.toNat < 16 then .ok (mk (e.setWidth 4) (le16 lo hi), rest) else .error .reservedEndpoint
  | _ => .error .truncated

/-- The operands of a SETUP event: the number of records less one, then the records, oldest first. -/
def decodeSetupEvent : List Byte → Except DecodeError (Instr × List Byte)
  | c :: bs =>
    if c.toNat < 3 then
      match takeRecords (c.toNat + 1) bs with
      | some (recs, rest) => .ok (.eventSetup recs, rest)
      | none => .error .truncated
    else .error .badRecordCount
  | [] => .error .truncated

/-- An event: a code byte (decision D35: 0 `SETUP`, 1 `IN_DONE`, 2 `OUT_DONE`, 3 `BUS_RESET`), then its
operands (log entry 7). -/
def decodeEvent : List Byte → Except DecodeError (Instr × List Byte)
  | [] => .error .truncated
  | c :: bs =>
    if c = 0#8 then decodeSetupEvent bs
    else if c = 1#8 then decodeCompletion .eventInDone bs
    else if c = 2#8 then decodeCompletion .eventOutDone bs
    else if c = 3#8 then .ok (.eventBusReset, bs)
    else .error .reservedEventCode

/-- The decoder, total on any bytes: the instruction and the bytes after it, or the reason there is none. -/
def decode (vc : Byte) : Format → List Byte → Except DecodeError (Instr × List Byte)
  | .setup, bs =>
    match takeRecord bs with
    | some (r, rest) => .ok (decodeRecord vc r, rest)
    | none => .error .truncated
  | .event, bs => decodeEvent bs

/-! ### The encoder -/

/-- The bytes of a request. -/
def requestBytes (key value index length : HWord) : List Byte :=
  Record.bytes (Req.record ⟨key, value, index, length⟩)

/-- The format of an instruction (opcode_table.json, "format"). -/
def Instr.format : Instr → Format
  | .setAddress _ _ _ => .setup
  | .setConfiguration _ _ _ => .setup
  | .getConfiguration _ _ _ => .setup
  | .getStatusDevice _ _ _ => .setup
  | .getStatusEndpoint _ _ _ => .setup
  | .clearFeatureEndpoint _ _ _ => .setup
  | .setFeatureEndpoint _ _ _ => .setup
  | .getDescriptor _ _ _ => .setup
  | .msOsDescriptor _ _ _ => .setup
  | .dfuDnload _ _ _ => .setup
  | .dfuGetstatus _ _ _ => .setup
  | .dfuClrstatus _ _ _ => .setup
  | .dfuGetstate _ _ _ => .setup
  | .dfuAbort _ _ _ => .setup
  | .unknownKey _ _ _ _ => .setup
  | .eventSetup _ => .event
  | .eventInDone _ _ => .event
  | .eventOutDone _ _ => .event
  | .eventBusReset => .event

/-- The bytes of an instruction, lowest address first. -/
def encode (vc : Byte) : Instr → List Byte
  | .setAddress v i l => requestBytes (RequestKind.setAddress.key vc) v i l
  | .setConfiguration v i l => requestBytes (RequestKind.setConfiguration.key vc) v i l
  | .getConfiguration v i l => requestBytes (RequestKind.getConfiguration.key vc) v i l
  | .getStatusDevice v i l => requestBytes (RequestKind.getStatusDevice.key vc) v i l
  | .getStatusEndpoint v i l => requestBytes (RequestKind.getStatusEndpoint.key vc) v i l
  | .clearFeatureEndpoint v i l => requestBytes (RequestKind.clearFeatureEndpoint.key vc) v i l
  | .setFeatureEndpoint v i l => requestBytes (RequestKind.setFeatureEndpoint.key vc) v i l
  | .getDescriptor v i l => requestBytes (RequestKind.getDescriptor.key vc) v i l
  | .msOsDescriptor v i l => requestBytes (RequestKind.msOsDescriptor.key vc) v i l
  | .dfuDnload v i l => requestBytes (RequestKind.dfuDnload.key vc) v i l
  | .dfuGetstatus v i l => requestBytes (RequestKind.dfuGetstatus.key vc) v i l
  | .dfuClrstatus v i l => requestBytes (RequestKind.dfuClrstatus.key vc) v i l
  | .dfuGetstate v i l => requestBytes (RequestKind.dfuGetstate.key vc) v i l
  | .dfuAbort v i l => requestBytes (RequestKind.dfuAbort.key vc) v i l
  | .unknownKey k v i l => requestBytes k v i l
  | .eventSetup recs => 0#8 :: BitVec.ofNat 8 (recs.length - 1) :: recs.flatMap Record.bytes
  | .eventInDone ep n => [1#8, ep.setWidth 8, loByte n, hiByte n]
  | .eventOutDone ep n => [2#8, ep.setWidth 8, loByte n, hiByte n]
  | .eventBusReset => [3#8]

/-! ### The words of the opcode table -/

/-- Bytes of the longest instruction: a SETUP event of three records. -/
def longestInstr : Nat := 26

/-- The format a table row of `nbits` bits has: a record is 64 bits, an event code fewer. -/
def tableFormat (nbits : Nat) : Format := if nbits < 64 then .event else .setup

/-- The instruction the decoder reads from a row's word `w`, bit 0 the least significant bit of the first
byte, every bit above the row's zero. `MSFT_VENDOR_CODE` is the example's 0x7E, as the table's own row has it. -/
def decodeTableWord (nbits w : Nat) : Option Instr :=
  match decode Config.example95.msftVendorCode (tableFormat nbits) (bytesOfNat longestInstr (w % 2 ^ nbits)) with
  | .ok (i, _) => some i
  | .error _ => none

end Sys2Proof
end

