-- ==== Sys2Proof/WellFormed.lean ====
section
/-! DEFINITION. Well-formedness of an instruction: what the operand types do not already say.
An unknown key is none of the fourteen (30_encoding.md rule R90); a SETUP event carries 1 to 3 records (rule R81). -/

namespace Sys2Proof

/-- Rule R90: the key is none of the fourteen of rule R88. -/
def isUnknownKey (vc : Byte) (key : HWord) : Bool := (classify vc key).isNone

/-- Rule R81: `1 <= len(recs) <= 3`. -/
def recordCountOk (recs : List Record) : Bool := decide (1 ≤ recs.length ∧ recs.length ≤ 3)

/-- The checks, one constructor at a time. `vc` is `MSFT_VENDOR_CODE`. -/
def Instr.wf (vc : Byte) : Instr → Bool
  | .setAddress _ _ _ => true
  | .setConfiguration _ _ _ => true
  | .getConfiguration _ _ _ => true
  | .getStatusDevice _ _ _ => true
  | .getStatusEndpoint _ _ _ => true
  | .clearFeatureEndpoint _ _ _ => true
  | .setFeatureEndpoint _ _ _ => true
  | .getDescriptor _ _ _ => true
  | .msOsDescriptor _ _ _ => true
  | .dfuDnload _ _ _ => true
  | .dfuGetstatus _ _ _ => true
  | .dfuClrstatus _ _ _ => true
  | .dfuGetstate _ _ _ => true
  | .dfuAbort _ _ _ => true
  | .unknownKey key _ _ _ => isUnknownKey vc key
  | .eventSetup recs => recordCountOk recs
  | .eventInDone _ _ => true
  | .eventOutDone _ _ => true
  | .eventBusReset => true

end Sys2Proof
end

