-- ==== Sys2Proof/Machine/State.lean ====
section
/-! DEFINITION. The state of the machine (10_state.md), the reasons a step can stop, and the state after
power-on reset (70_reset_and_hazards.md rule R231). State is plain data. -/

namespace Sys2Proof.Machine

open Sys2Proof

/-! ### The engine's record `S` (rule R20) -/

/-- The phase register, the engine's program counter (rule R21). -/
inductive Phase where
  | waitSetup
  | inData
  | outData
  | lastInData
  | waitStatusIn
  | waitStatusOut
  | stalled
deriving DecidableEq, Repr

/-- The transfer context (rules R23 to R26). `buffer` is an address of `ADDR_W` bits, held as a Nat. -/
structure Xfer where
  buffer : Nat
  remaining : HWord
  zlp : Bool
deriving DecidableEq, Repr

/-- The record `S` of rule R20. -/
structure Engine where
  phase : Phase
  xfer : Xfer
  req : Req
  devAddr : DevAddr
  config : Byte
  fatal : Bool
deriving DecidableEq, Repr

/-! ### What the engine emits and asks -/

/-- The six commands (30_encoding.md rule R85). An address operand is `none` where the rule writes ⊥. -/
inductive Command where
  | armSetup
  | armOut (addr : Option Nat) (len : Nat)
  | armIn (addr : Option Nat) (len : Nat)
  | stallIn
  | stallOut
  | setAddress (d : DevAddr)
deriving DecidableEq, Repr

/-- The five calls of the Firmware-Update Engine (30_encoding.md rule R87). The data of a download is the
address of its first byte, `none` when there are no bytes, and the bytes. -/
inductive FwCall where
  | download (blockNumber blockLength packetOffset packetLength : HWord) (addr : Option Nat) (data : List Byte)
  | getStatus
  | clearStatus
  | getState
  | abort
deriving DecidableEq, Repr

/-- The status block `get_status` returns: 6 bytes, element 0 first (rule R87, 20_memory.md rule R52). -/
structure DfuStatus where
  s0 : Byte
  s1 : Byte
  s2 : Byte
  s3 : Byte
  s4 : Byte
  s5 : Byte
deriving DecidableEq, Repr

/-- The inputs a step may ask for: `T.in_halted` (60_exceptions.md rule R217) and the answers of the five
calls (rule R218). Each is free. -/
structure Answers where
  inHalted : Bool
  download : Bool
  getStatus : Option DfuStatus
  clearStatus : Bool
  getState : Byte
  abort : Bool
deriving DecidableEq, Repr

/-! ### The transport and the host -/

/-- An armed packet: its buffer and its length (rule R216). -/
structure Armed where
  addr : Option Nat
  len : Nat
deriving DecidableEq, Repr

/-- The state of the Endpoint Transport (10_state.md rule R36, 60_exceptions.md rule R216). -/
structure Transport where
  setupArmed : Bool
  inArmed : Option Armed
  outArmed : Option Armed
  haltIn : Bool
  haltOut : Bool
  address : DevAddr
deriving DecidableEq, Repr

/-- What the host sees of a transaction (rules R202, R216): a data packet, a STALL or a NAK handshake. -/
inductive HostSees where
  | data (bytes : List Byte)
  | stall
  | nak
deriving DecidableEq, Repr

/-- The host's moves at the reference transport (rules R216, R220). -/
inductive HostMove where
  | setupPacket (r : Record)
  | inToken
  | outPacket (bytes : List Byte)
  | busReset
deriving DecidableEq, Repr

/-- One move of an agent outside the engine, or the delivery of an event to it (log entry 5).
`host` is a move at the reference transport (rule R216). `raise` is any other transport making an event pending
(rules R207, R209, 70 R243), with the bytes its DMA wrote for an OUT packet (20_memory.md rule R59). `deliver`
gives the engine pending event number `k`, oldest first from 0, with the inputs of that step: every order of
delivery is admitted (rule R209). -/
inductive Turn where
  | host (m : HostMove)
  | raise (e : Event) (dma : List Byte)
  | deliver (k : Nat) (answers : Answers)
deriving DecidableEq, Repr

/-! ### The whole state -/

/-- Memory: address and byte pairs in one canonical form (`Memory.wf` in Machine/Ops.lean). -/
abbrev Memory := List Host.Cell

end Sys2Proof.Machine

namespace Sys2Proof.Machine

/-- The state of the machine: the engine's record, memory, the transport, the events not yet delivered, what has
been emitted and asked since power-on, and the model's own fields (INVENTORY.md, State). -/
structure State where
  cfg : Config
  eng : Engine
  mem : Memory
  port : Transport
  pending : List Event
  agenda : List Turn
  answers : Answers
  commands : List Command
  calls : List FwCall
  wire : List HostSees
  sendLen : HWord
  freeIdx : Nat
deriving DecidableEq, Repr

/-! ### Why a step can stop -/

/-- The faults: situations in which the spec gives the step no outcome (60_exceptions.md rules R204, R205). -/
inductive Fault where
  /-- `Fault(COUNT_EXCEEDS_ARMED)`: raised by the completions of a data stage when the reported count exceeds the
  armed length (41_data_stage_chunking.md rule R147). Safe: the spec gives no outcome. -/
  | countExceedsArmed
  /-- `Fault(ADDR_RANGE)`: raised by every memory access and pointer advance that leaves the address space
  (20_memory.md rule R62). Safe: the spec gives no outcome. -/
  | addrRange
  /-- `Fault(RXBUF_OVERRUN)`: raised when an OUT packet is armed outside `RXBUF` (rule R62). Safe: the spec gives
  no outcome. -/
  | rxbufOverrun
  /-- The engine has taken the fatal trap earlier and takes no step for any event (40 R110, 60 R204, 93 U13 "stuck").
  Raised by `step` alone. Safe: the spec gives no step. -/
  | fatalHalt
deriving DecidableEq, Repr

/-- The refusals. -/
inductive Refusal where
  /-- The instruction has no meaning in this model; raised by `exec`'s own arms alone. Safe. -/
  | notModelled (mnemonic : String)
  /-- The configuration breaks 20_memory.md rule R50; raised by `step` alone. Safe: 93 U22 says to refuse it. -/
  | badConfiguration
  /-- A SETUP event with no record or more than three, which "cannot be formed" (30_encoding.md rule R81); raised by
  the meaning of EVENT_SETUP. Safe: no such event exists. -/
  | malformedEvent
deriving DecidableEq, Repr

/-! ### Power-on reset (rule R231) -/

/-- The engine's record after reset (rules R20, R230, R231). -/
def Engine.reset : Engine where
  phase := .waitSetup
  xfer := ⟨0, 0#16, false⟩
  req := ⟨0#16, 0#16, 0#16, 0#16⟩
  devAddr := 0#7
  config := 0#8
  fatal := false

/-- The transport after reset: armed for SETUP (rule R231), everything else clear (log entry 6). -/
def Transport.reset : Transport where
  setupArmed := true
  inArmed := none
  outArmed := none
  haltIn := false
  haltOut := false
  address := 0#7

/-- The answers that stand before any delivery has brought some (DESIGN CHOICE, log entry 5). -/
def Answers.reset : Answers where
  inHalted := false
  download := true
  getStatus := some ⟨0#8, 0#8, 0#8, 0#8, 0#8, 0#8⟩
  clearStatus := true
  getState := 0#8
  abort := true

/-- The machine right after power-on reset: rule R231, `emit ArmSetup` included, no event pending. -/
def State.reset : State where
  cfg := Config.example95
  eng := Engine.reset
  mem := []
  port := Transport.reset
  pending := []
  agenda := []
  answers := Answers.reset
  commands := [.armSetup]
  calls := []
  wire := []
  sendLen := 0#16
  freeIdx := 0

end Sys2Proof.Machine
end

