-- ==== Sys2Proof/Machine/Flags.lean ====
section
/-! DEFINITION. The one flag an operation computes: `S.xfer.zlp` (10_state.md rule R25). The other,
`S.fatal`, is set by the fatal trap (Machine/Ops.lean). There are no condition codes (rule R31). -/

namespace Sys2Proof.Machine

open Sys2Proof

/-- `zlp` of a transfer of clamped length `len`: `L > 0 and L mod P = 0` (40_control_state_machine.md rule R112). -/
def zlpFlag (len : HWord) : Bool := decide (0 < len.toNat ∧ len.toNat % maxPacket = 0)

end Sys2Proof.Machine
end

