-- ==== Sys2Proof/Machine/Operands.lean ====
section
/-! DEFINITION. Operand assembly (30_encoding.md rule R95), the sub-fields of the key (rule R83), lengths
(41_data_stage_chunking.md rule R148), alignment (20_memory.md rule R54) and the memory regions (rule R50). -/

namespace Sys2Proof.Machine

open Sys2Proof

/-! ### Operands of the requests -/

/-- SET_ADDRESS uses `value[6:0]` (rules R95, R160). -/
def addressOperand (value : HWord) : DevAddr := value.extractLsb' 0 7

/-- SET_CONFIGURATION uses `value[7:0]` (rules R95, R161). -/
def configOperand (value : HWord) : Byte := value.extractLsb' 0 8

/-- The endpoint test of R164 to R166: `index != 0`, under `EP_INDEX_MASK` (93 U10, default 0xFFFF). -/
def badEndpointIndex (mask index : HWord) : Bool := (index &&& mask) != 0#16

/-! ### Sub-fields of the key (rule R83); no rule of the engine branches on them -/

/-- `code`, `key[15:8]`. -/
def keyCode (key : HWord) : Byte := key.extractLsb' 8 8

/-- `dir`, `key[7]`: true for device to host. -/
def keyDirIn (key : HWord) : Bool := key.getLsbD 7

/-- `type`, `key[6:5]`. -/
def keyType (key : HWord) : BitVec 2 := key.extractLsb' 5 2

/-- `recipient`, `key[4:0]`. -/
def keyRecipient (key : HWord) : BitVec 5 := key.extractLsb' 0 5

/-! ### Lengths -/

/-- `min(data_len, requested_length)` (rule R112). -/
def clampLength (dataLen requested : HWord) : HWord :=
  if dataLen.toNat ≤ requested.toNat then dataLen else requested

/-- `min(remaining, P)`: the length of the packet armed next (rules R140, R146), and the most a completion may
report (rule R147). -/
def armedLength (remaining : HWord) : Nat := min remaining.toNat maxPacket

/-- The phase while an IN packet is armed (rule R140): `LastInData` iff less than a full packet is left. -/
def inPhase (remaining : HWord) : Phase := if remaining.toNat < maxPacket then .lastInData else .inData

/-! ### Alignment and regions -/

/-- An address is aligned iff `a mod ALIGN = 0` (rule R54). -/
def isAligned (c : Config) (a : Nat) : Bool := a % c.align == 0

/-- Whether unaligned packets of a transfer of clamped length `len` are staged (rule R55; with
`STAGE_LONG_UNALIGNED` false, only those of transfers no longer than one packet, 93 U5). -/
def stagesTransfer (c : Config) (len : HWord) : Bool := c.stageLongUnaligned || decide (len.toNat ≤ maxPacket)

/-- The first address that an access may not reach: `2^ADDR_W`. -/
def addrLimit (c : Config) : Nat := 2 ^ c.addrW

/-- An armed OUT range lies inside `RXBUF` (rule R62). -/
def insideRxbuf (c : Config) (a k : Nat) : Bool :=
  decide (c.rxbufBase ≤ a ∧ a + k ≤ c.rxbufBase + c.rxBufSize)

/-- A string entry: `selector[15:8] = 0x03` (30_encoding.md rule R86). -/
def isStringEntry (e : DescEntry) : Bool := hiByte e.selector == 0x03#8

/-- The bytes a table entry occupies for rule R50: its stored length; a string entry reports its own length in
byte 0, so at least that byte (log entry 3). -/
def entryExtent (e : DescEntry) : Nat := if isStringEntry e then max 1 e.length.toNat else e.length.toNat

/-- The regions of 10_state.md rule R33, as base and size; the SETUP ring has no place in the address space that
the spec names (91 N6) and stands in the events. -/
def regions (c : Config) : List (Nat × Nat) :=
  (c.scratchBase, maxPacket) :: (c.replyBase, replySize) :: (c.rxbufBase, c.rxBufSize) ::
    (c.msOsData, c.msOsLength.toNat) :: c.descTable.map (fun e => (e.data, entryExtent e))

/-- A region begins at an address, does not wrap past the top of the space, and holds no address 0 (rule R50). An empty
region holds no address at all, so it may begin at 0 (DESIGN CHOICE, log entry 3). -/
def regionPlaced (c : Config) (r : Nat × Nat) : Bool :=
  decide (r.1 < addrLimit c ∧ r.1 + r.2 ≤ addrLimit c ∧ (r.2 = 0 ∨ 0 < r.1))

/-- Two regions share no address; an empty one shares none with any (DESIGN CHOICE, log entry 3). -/
def regionsApart (r t : Nat × Nat) : Bool := decide (r.1 + r.2 ≤ t.1 ∨ t.1 + t.2 ≤ r.1 ∨ r.2 = 0 ∨ t.2 = 0)

/-- Every region is apart from every later one. -/
def pairwiseApart : List (Nat × Nat) → Bool
  | [] => true
  | r :: rs => rs.all (regionsApart r) && pairwiseApart rs

/-- Rule R50, and `ALIGN >= 1` (rule R54: it is a divisor). A configuration that breaks this is refused
(93 U22). -/
def configOk (c : Config) : Bool :=
  decide (0 < c.align) && isAligned c c.scratchBase && isAligned c c.replyBase && isAligned c c.rxbufBase &&
    (regions c).all (regionPlaced c) && pairwiseApart (regions c)

end Sys2Proof.Machine
end

