-- ==== Sys2Proof/Machine/Ops.lean ====
section
/-! DEFINITION. The shared operations: memory (20_memory.md), commands and calls (00_scope.md rule R11), the
exception path `error` and the fatal trap (40_control_state_machine.md rule R114, 60_exceptions.md rule R204), and
the beginning of a SETUP step (rule R111). -/

namespace Sys2Proof.Machine

open Sys2Proof

/-! ### Memory in canonical form -/

/-- What an address that memory does not list reads as (DESIGN CHOICE, log entry 4). -/
def unlistedByte : Byte := 0#8

/-- Read one byte. -/
def Memory.read : Memory → Nat → Byte
  | [], _ => unlistedByte
  | (b, v) :: m, a => if a = b then v else Memory.read m a

/-- Write one byte and keep the canonical form. -/
def Memory.write : Memory → Nat → Byte → Memory
  | [], a, v => if v = unlistedByte then [] else [(a, v)]
  | (b, w) :: m, a, v =>
    if a < b then (if v = unlistedByte then (b, w) :: m else (a, v) :: (b, w) :: m)
    else if a = b then (if v = unlistedByte then m else (a, v) :: m)
    else (b, w) :: Memory.write m a v

/-- The bytes at `a` to `a + n - 1`, lowest address first. -/
def Memory.readBytes (m : Memory) (a : Nat) : Nat → List Byte
  | 0 => []
  | n + 1 => Memory.read m a :: Memory.readBytes m (a + 1) n

/-- Write a byte sequence from `a` up. -/
def Memory.writeBytes (m : Memory) (a : Nat) : List Byte → Memory
  | [] => m
  | b :: bs => Memory.writeBytes (Memory.write m a b) (a + 1) bs

/-- Canonical form: every address above `lo`, strictly rising, and no byte listed that an unlisted address
reads as. -/
def Memory.wfAbove (lo : Nat) : Memory → Bool
  | [] => true
  | (a, v) :: m => decide (lo ≤ a) && !(v == unlistedByte) && Memory.wfAbove (a + 1) m

/-- The canonical form of a memory. -/
def Memory.wf (m : Memory) : Bool := Memory.wfAbove 0 m

/-! ### Results -/

/-- The outcome of a step of this machine. -/
abbrev Result := Host.Outcome State Fault Refusal

/-- Go on with the next state, if there is one. -/
def thenDo (r : Result) (f : State → Result) : Result :=
  match r with
  | .next s => f s
  | .fault e => .fault e
  | .refused e => .refused e

/-- Go on with a value, or raise the fault. -/
def orFault {α : Type} (r : Except Fault α) (f : α → Result) : Result :=
  match r with
  | .ok a => f a
  | .error e => .fault e

/-! ### Field updates -/

def State.setPhase (s : State) (p : Phase) : State := { s with eng := { s.eng with phase := p } }

def State.setXfer (s : State) (x : Xfer) : State := { s with eng := { s.eng with xfer := x } }

def State.setReq (s : State) (q : Req) : State := { s with eng := { s.eng with req := q } }

def State.setDevAddr (s : State) (d : DevAddr) : State := { s with eng := { s.eng with devAddr := d } }

def State.setConfig (s : State) (c : Byte) : State := { s with eng := { s.eng with config := c } }

def State.setFatal (s : State) : State := { s with eng := { s.eng with fatal := true } }

def State.setMem (s : State) (m : Memory) : State := { s with mem := m }

def State.setPort (s : State) (p : Transport) : State := { s with port := p }

def State.setSendLen (s : State) (len : HWord) : State := { s with sendLen := len }

def State.addPending (s : State) (e : Event) : State := { s with pending := s.pending ++ [e] }

def State.addWire (s : State) (w : HostSees) : State := { s with wire := s.wire ++ [w] }

def State.addCall (s : State) (c : FwCall) : State := { s with calls := s.calls ++ [c] }

/-! ### Memory primitives (00_scope.md rule R10, 20_memory.md rule R62) -/

/-- The range of `n` bytes at `a` lies in the address space: `a + n - 1 < 2^ADDR_W`; no byte is always admitted. -/
def inSpace (c : Config) (a n : Nat) : Bool := decide (n = 0 ∨ a + n ≤ addrLimit c)

/-- `MemRead(a, n)`. -/
def memRead (s : State) (a n : Nat) : Except Fault (List Byte) :=
  if inSpace s.cfg a n then .ok (Memory.readBytes s.mem a n) else .error .addrRange

/-- `MemWrite(a, n, bs)` with `n` the length of `bs`. -/
def memWrite (s : State) (a : Nat) (bs : List Byte) : Except Fault State :=
  if inSpace s.cfg a bs.length then .ok (s.setMem (Memory.writeBytes s.mem a bs)) else .error .addrRange

/-! ### Commands -/

/-- What a command does to the transport (30_encoding.md rule R85, 60_exceptions.md rule R216). -/
def Transport.apply (p : Transport) : Command → Transport
  | .armSetup => { p with setupArmed := true }
  | .armOut a k => { p with outArmed := some ⟨a, k⟩ }
  | .armIn a k => { p with inArmed := some ⟨a, k⟩ }
  | .stallIn => { p with haltIn := true }
  | .stallOut => { p with haltOut := true }
  | .setAddress d => { p with address := d }

/-- `emit C`: the command joins the list (rule R11) and the transport, which accepts it at once (60 R208). -/
def State.emit (s : State) (c : Command) : State :=
  { s with commands := s.commands ++ [c], port := s.port.apply c }

/-! ### The exception path -/

/-- The cause labels of 60_exceptions.md rule R200. They are stored nowhere (decision D28). -/
inductive ErrorCause where
  | unknownKey
  | badIndex
  | badFeature
  | noDescriptor
  | fwRejected
  | dnloadRejected
  | inBadPhase
  | outBadPhase
deriving DecidableEq, Repr

/-- `error(c)` (40_control_state_machine.md rule R114): taking a recoverable error. It saves nothing and there is
no return from it (60 R211, R213): the next SETUP event starts a new transfer. -/
def error (_c : ErrorCause) (s : State) : State :=
  ((((s.setPhase .stalled).emit .stallIn).emit .stallOut).setPhase .waitSetup).emit .armSetup

/-- The labels of the fatal trap (60_exceptions.md rule R204). -/
inductive FatalCause where
  | nonzeroEp
deriving DecidableEq, Repr

/-- `raise Fatal(c)` (rule R204): `S.fatal` is set, nothing else is written, nothing is emitted. -/
def fatalTrap (_c : FatalCause) (s : State) : State := s.setFatal

/-! ### The beginning of a SETUP step -/

/-- The first lines of rule R111: latch the request, reset the transfer context, phase `WaitSetup`.
(`sendLen` is this model's own and is reset with the context, log entry 8.) -/
def beginSetup (q : Req) (s : State) : State :=
  (((s.setReq q).setXfer ⟨0, 0#16, false⟩).setSendLen 0#16).setPhase .waitSetup

end Sys2Proof.Machine
end

