-- ==== Sys2Proof/Machine/Deliver.lean ====
section
/-! DEFINITION. What delivering an event does before the engine handles it: the counterpart of a fetch
(20_memory.md rule R67, 60_exceptions.md rule R207). -/

namespace Sys2Proof.Machine

open Sys2Proof

/-- The outside agents' move has been taken from the agenda. -/
def State.takeTurn (s : State) : State := { s with agenda := s.agenda.tail }

/-- Pending event number `k` leaves the list, delivered exactly once, and the inputs of this step stand ready. -/
def State.takeEvent (s : State) (k : Nat) (answers : Answers) : State :=
  { s with agenda := s.agenda.tail, pending := s.pending.eraseIdx k, answers := answers }

/-- The event that a table word stands for (Decode.lean): a SETUP event of the one record, or the event whose code it
is. -/
def eventOfTableWord (nbits w : Nat) : Option Event :=
  match tableFormat nbits with
  | .setup => some (.setup [Record.ofWord w])
  | .event =>
    match decodeTableWord nbits w with
    | some i => i.event
    | none => none

/-- The event stands alone in the list and is the next to be delivered, with the answers of `Answers.reset` (log entry
10). -/
def State.loadEvent (s : State) (e : Option Event) : State :=
  match e with
  | some e => { s with pending := [e], agenda := [.deliver 0 Answers.reset] }
  | none => { s with pending := [], agenda := [] }

end Sys2Proof.Machine
end

