-- ==== Sys2Proof/Machine/EntryPoints.lean ====
section
/-! DEFINITION. The entry points of the control state machine (40_control_state_machine.md rules R112, R113,
R115, R123) and the arming of packets (41_data_stage_chunking.md rule R140, 20_memory.md rules R55, R62). -/

namespace Sys2Proof.Machine

open Sys2Proof

/-- Arm an IN packet of `k >= 1` bytes from `a`, staged through `SCRATCH` when `a` is unaligned (rule R55). -/
def armIn (a k : Nat) (s : State) : Result :=
  if isAligned s.cfg a || !stagesTransfer s.cfg s.sendLen then .next (s.emit (.armIn (some a) k))
  else
    orFault (memRead s a k) fun bs =>
      orFault (memWrite s s.cfg.scratchBase bs) fun t =>
        .next (t.emit (.armIn (some s.cfg.scratchBase) k))

/-- `arm_in_next()` (rule R140). -/
def armInNext (s : State) : Result :=
  if armedLength s.eng.xfer.remaining = 0 then
    .next ((s.setPhase (inPhase s.eng.xfer.remaining)).emit (.armIn none 0))
  else
    armIn s.eng.xfer.buffer (armedLength s.eng.xfer.remaining) (s.setPhase (inPhase s.eng.xfer.remaining))

/-- Arm an OUT packet (rule R62): inside `RXBUF`, or the zero-length packet, whose address is ⊥. -/
def armOut (a k : Nat) (s : State) : Result :=
  if k = 0 then .next (s.emit (.armOut none 0))
  else if insideRxbuf s.cfg a k then .next (s.emit (.armOut (some a) k))
  else .fault .rxbufOverrun

/-- `status_out()` (rule R123): the status stage of a control READ. `STATUS_OUT_ARM` (93 U8) says which command is
emitted; `ArmOut(⊥, 0)` is the rule's. -/
def statusOut (s : State) : State :=
  match s.cfg.statusOutArm with
  | .armOut => (s.setPhase .waitStatusOut).emit (.armOut none 0)
  | .armSetup => (s.setPhase .waitStatusOut).emit .armSetup
  | .noCommand => s.setPhase .waitStatusOut

/-- The state in which `send` has loaded the transfer context (rule R112). -/
def loadSend (data : Nat) (len : HWord) (s : State) : State :=
  (s.setXfer ⟨data, len, zlpFlag len⟩).setSendLen len

/-- `send(data, data_len, requested_length)` (rule R112). With `ZERO_LEN_SEND = straight_to_status` (93 U2) an empty
reply goes straight to the status stage. -/
def send (data : Nat) (dataLen requested : HWord) (s : State) : Result :=
  if s.cfg.zeroLenSend = .straightToStatus ∧ clampLength dataLen requested = 0#16 then
    .next (statusOut (loadSend data (clampLength dataLen requested) s))
  else armInNext (loadSend data (clampLength dataLen requested) s)

/-- `ack()` (rule R113). -/
def ack (s : State) : State := (s.emit (.armIn none 0)).setPhase .waitStatusIn

/-- `recv(buffer, length)` (rule R115). -/
def recv (buffer : Nat) (length : HWord) (s : State) : Result :=
  thenDo (armOut buffer (armedLength length) (s.setXfer ⟨buffer, length, false⟩)) fun t =>
    .next (t.setPhase .outData)

/-- `reply(s)` (42_standard_requests.md rule R168): write the reply to `REPLY` and send it. -/
def reply (bs : List Byte) (requested : HWord) (s : State) : Result :=
  orFault (memWrite s s.cfg.replyBase bs) fun t => send s.cfg.replyBase (BitVec.ofNat 16 bs.length) requested t

/-- The end of a request that the Firmware-Update Engine accepts or rejects (44_dfu_requests.md rules R185, R187,
R189). -/
def ackOrError (accepted : Bool) (c : ErrorCause) (s : State) : State := if accepted then ack s else error c s

end Sys2Proof.Machine
end

