-- ==== Sys2Proof/Machine/DataStage.lean ====
section
/-! DEFINITION. The data stage (41_data_stage_chunking.md): the IN packetizer, the OUT reassembler, and the
forwarding of DNLOAD bytes (44_dfu_requests.md rule R190). -/

namespace Sys2Proof.Machine

open Sys2Proof

/-- The count update of rules R142 and R145: subtract what the hardware reports, advance the pointer; the advance
faults when it leaves the address space (20_memory.md rule R62). -/
def advance (n : HWord) (s : State) : Except Fault State :=
  if s.eng.xfer.buffer + n.toNat < addrLimit s.cfg then
    .ok (s.setXfer ⟨s.eng.xfer.buffer + n.toNat, s.eng.xfer.remaining - n, s.eng.xfer.zlp⟩)
  else .error .addrRange

/-- What follows a completed IN packet (rule R143): the next packet, the deferred zero-length packet, or the
status stage. -/
def inNext (s : State) : Result :=
  if s.eng.xfer.remaining ≠ 0#16 then armInNext s
  else if s.eng.xfer.zlp then armInNext (s.setXfer { s.eng.xfer with zlp := false })
  else .next (statusOut s)

/-- `in_advance(n)` (rule R141). -/
def inAdvance (n : HWord) (s : State) : Result :=
  if armedLength s.eng.xfer.remaining < n.toNat then .fault .countExceedsArmed
  else orFault (advance n s) inNext

/-- The call of `FW.download` that `forward_dnload()` makes (rule R190), `data` being the bytes it hands over. -/
def downloadCall (s : State) (data : List Byte) : FwCall :=
  .download s.eng.req.value s.eng.req.length (s.eng.req.length - s.eng.xfer.remaining)
    (BitVec.ofNat 16 (armedLength s.eng.xfer.remaining)) (some s.eng.xfer.buffer) data

/-- `forward_dnload()` (rule R190): make the call; its answer is `answers.download`. -/
def forwardDnload (s : State) : Except Fault State :=
  match memRead s s.eng.xfer.buffer (armedLength s.eng.xfer.remaining) with
  | .ok data => .ok (s.addCall (downloadCall s data))
  | .error e => .error e

/-- What follows a completed OUT packet (rule R146): the acknowledgement or the next packet. -/
def outNext (s : State) : Result :=
  if s.eng.xfer.remaining = 0#16 then .next (ack s)
  else armOut s.eng.xfer.buffer (armedLength s.eng.xfer.remaining) s

/-- `out_advance(n)` (rule R144). -/
def outAdvance (n : HWord) (s : State) : Result :=
  if armedLength s.eng.xfer.remaining < n.toNat then .fault .countExceedsArmed
  else if s.eng.req.key = RequestKind.dfuDnload.key s.cfg.msftVendorCode then
    orFault (forwardDnload s) fun t =>
      if t.answers.download then orFault (advance n t) outNext else .next (error .dnloadRejected t)
  else orFault (advance n s) outNext

end Sys2Proof.Machine
end

