-- ==== Sys2Proof/Machine/Standard.lean ====
section
/-! DEFINITION. The eight standard requests (42_standard_requests.md). Each meaning is the whole SETUP step of its
record: rule R111's beginning, then the request's own rule. -/

namespace Sys2Proof.Machine

open Sys2Proof

/-- The SETUP step of a request of kind `k` has begun (rule R111). -/
def beginRequest (k : RequestKind) (value index length : HWord) (s : State) : State :=
  beginSetup ⟨k.key s.cfg.msftVendorCode, value, index, length⟩ s

/-- SET_ADDRESS (rule R160). -/
def execSetAddress (value index length : HWord) (s : State) : Result :=
  let t := beginRequest .setAddress value index length s
  .next (ack ((t.setDevAddr (addressOperand value)).emit (.setAddress (addressOperand value))))

/-- SET_CONFIGURATION (rule R161). -/
def execSetConfiguration (value index length : HWord) (s : State) : Result :=
  .next (ack ((beginRequest .setConfiguration value index length s).setConfig (configOperand value)))

/-- GET_CONFIGURATION (rule R162). -/
def execGetConfiguration (value index length : HWord) (s : State) : Result :=
  let t := beginRequest .getConfiguration value index length s
  reply [t.eng.config] length t

/-- GET_STATUS, device form (rule R163). -/
def execGetStatusDevice (value index length : HWord) (s : State) : Result :=
  let t := beginRequest .getStatusDevice value index length s
  reply (bytesLe16 t.cfg.deviceStatus) length t

/-- The reply of GET_STATUS, endpoint form: `[h, 0x00]` (rule R164). -/
def endpointStatus (halted : Bool) : List Byte := [if halted then 1#8 else 0#8, 0#8]

/-- GET_STATUS, endpoint form (rule R164). -/
def execGetStatusEndpoint (value index length : HWord) (s : State) : Result :=
  let t := beginRequest .getStatusEndpoint value index length s
  if badEndpointIndex t.cfg.epIndexMask index then .next (error .badIndex t)
  else reply (endpointStatus t.answers.inHalted) length t

/-- The tests that CLEAR_FEATURE and SET_FEATURE share (rules R165, R166), in their order, and the reading
`always_error` of 93 U11; `none` when the form is valid. -/
def featureError (c : Config) (value index : HWord) : Option ErrorCause :=
  if badEndpointIndex c.epIndexMask index then some .badIndex
  else if value ≠ 0#16 then some .badFeature
  else if c.featureHaltEffect = .alwaysError then some .badFeature
  else none

/-- CLEAR_FEATURE, endpoint form (rule R165): the valid form only acknowledges. -/
def execClearFeatureEndpoint (value index length : HWord) (s : State) : Result :=
  let t := beginRequest .clearFeatureEndpoint value index length s
  match featureError t.cfg value index with
  | some c => .next (error c t)
  | none => .next (ack t)

/-- SET_FEATURE, endpoint form (rule R166): the valid form only acknowledges; with `stall_on_set` (93 U11) it
stalls both halves first. -/
def execSetFeatureEndpoint (value index length : HWord) (s : State) : Result :=
  let t := beginRequest .setFeatureEndpoint value index length s
  match featureError t.cfg value index with
  | some c => .next (error c t)
  | none =>
    if t.cfg.featureHaltEffect = .stallOnSet then .next (ack ((t.emit .stallIn).emit .stallOut)) else .next (ack t)

/-- The first table entry with the selector (rule R167). -/
def findDescriptor (table : List DescEntry) (selector : HWord) : Option DescEntry :=
  table.find? (fun e => e.selector == selector)

/-- The reported length of an entry (30_encoding.md rule R86): byte 0 of a string, else the stored length. -/
def reportedLength (e : DescEntry) (s : State) : Except Fault HWord :=
  if isStringEntry e then
    match memRead s e.data 1 with
    | .ok bs => .ok ((bs.headD unlistedByte).setWidth 16)
    | .error f => .error f
  else .ok e.length

/-- GET_DESCRIPTOR (rule R167). -/
def execGetDescriptor (value index length : HWord) (s : State) : Result :=
  let t := beginRequest .getDescriptor value index length s
  match findDescriptor t.cfg.descTable value with
  | none => .next (error .noDescriptor t)
  | some e => orFault (reportedLength e t) fun n => send e.data n length t

end Sys2Proof.Machine
end

