-- ==== Sys2Proof/Machine/Dfu.lean ====
section
/-! DEFINITION. The five DFU class requests (44_dfu_requests.md). "all require wIndex == 0 or the request
errors": the test comes before any call of the Firmware-Update Engine. -/

namespace Sys2Proof.Machine

open Sys2Proof

/-- DFU_DNLOAD (rule R185). -/
def execDfuDnload (value index length : HWord) (s : State) : Result :=
  let t := beginRequest .dfuDnload value index length s
  if index ≠ 0#16 then .next (error .badIndex t)
  else if length = 0#16 then
    .next (ackOrError t.answers.download .dnloadRejected (t.addCall (.download value 0#16 0#16 0#16 none [])))
  else recv t.cfg.rxbufBase length t

/-- The bytes of a status block, element 0 first (20_memory.md rule R52). -/
def statusBytes (st : DfuStatus) : List Byte := [st.s0, st.s1, st.s2, st.s3, st.s4, st.s5]

/-- DFU_GETSTATUS (rule R186). -/
def execDfuGetstatus (value index length : HWord) (s : State) : Result :=
  let t := beginRequest .dfuGetstatus value index length s
  if index ≠ 0#16 then .next (error .badIndex t)
  else
    match t.answers.getStatus with
    | some st => reply (statusBytes st) length (t.addCall .getStatus)
    | none => .next (error .fwRejected (t.addCall .getStatus))

/-- DFU_CLRSTATUS (rule R187). -/
def execDfuClrstatus (value index length : HWord) (s : State) : Result :=
  let t := beginRequest .dfuClrstatus value index length s
  if index ≠ 0#16 then .next (error .badIndex t)
  else .next (ackOrError t.answers.clearStatus .fwRejected (t.addCall .clearStatus))

/-- DFU_GETSTATE (rule R188). -/
def execDfuGetstate (value index length : HWord) (s : State) : Result :=
  let t := beginRequest .dfuGetstate value index length s
  if index ≠ 0#16 then .next (error .badIndex t)
  else reply [t.answers.getState] length (t.addCall .getState)

/-- DFU_ABORT (rule R189). -/
def execDfuAbort (value index length : HWord) (s : State) : Result :=
  let t := beginRequest .dfuAbort value index length s
  if index ≠ 0#16 then .next (error .badIndex t)
  else .next (ackOrError t.answers.abort .fwRejected (t.addCall .abort))

end Sys2Proof.Machine
end

