-- ==== Sys2Proof/Machine/Vendor.lean ====
section
/-! DEFINITION. The vendor request (43_vendor_requests.md) and the unknown keys (30_encoding.md rule R90). -/

namespace Sys2Proof.Machine

open Sys2Proof

/-- MS_OS_DESCRIPTOR (rule R180). -/
def execMsOsDescriptor (value index length : HWord) (s : State) : Result :=
  let t := beginRequest .msOsDescriptor value index length s
  if index ≠ t.cfg.msftIndex then .next (error .badIndex t) else send t.cfg.msOsData t.cfg.msOsLength length t

/-- Every other key (rule R90): `error(EC_UNKNOWN_KEY)`; the operands are latched and not examined. -/
def execUnknownKey (key value index length : HWord) (s : State) : Result :=
  .next (error .unknownKey (beginSetup ⟨key, value, index, length⟩ s))

end Sys2Proof.Machine
end

