-- ==== Sys2Proof/Machine/Events.lean ====
section
/-! DEFINITION. The four events: SETUP and its dispatcher (40_control_state_machine.md rules R111, R121; 30_encoding.md
rule R89), the completions (rules R116 to R119) and the bus reset (70_reset_and_hazards.md rule R230). -/

namespace Sys2Proof.Machine

open Sys2Proof

/-- `dispatch(req)` (rules R89, R121): at most one of the fourteen keys matches; if none does, rule R90. -/
def dispatch (q : Req) (s : State) : Result :=
  match classify s.cfg.msftVendorCode q.key with
  | some .setAddress => execSetAddress q.value q.index q.length s
  | some .setConfiguration => execSetConfiguration q.value q.index q.length s
  | some .getConfiguration => execGetConfiguration q.value q.index q.length s
  | some .getStatusDevice => execGetStatusDevice q.value q.index q.length s
  | some .getStatusEndpoint => execGetStatusEndpoint q.value q.index q.length s
  | some .clearFeatureEndpoint => execClearFeatureEndpoint q.value q.index q.length s
  | some .setFeatureEndpoint => execSetFeatureEndpoint q.value q.index q.length s
  | some .getDescriptor => execGetDescriptor q.value q.index q.length s
  | some .msOsDescriptor => execMsOsDescriptor q.value q.index q.length s
  | some .dfuDnload => execDfuDnload q.value q.index q.length s
  | some .dfuGetstatus => execDfuGetstatus q.value q.index q.length s
  | some .dfuClrstatus => execDfuClrstatus q.value q.index q.length s
  | some .dfuGetstate => execDfuGetstate q.value q.index q.length s
  | some .dfuAbort => execDfuAbort q.value q.index q.length s
  | none => execUnknownKey q.key q.value q.index q.length s

/-- The record a SETUP event decodes: the most recent of 1 to 3 (30_encoding.md rule R81). -/
def newestRecord : List Record → Option Record
  | [r] => some r
  | [_, r] => some r
  | [_, _, r] => some r
  | _ => none

/-- EVENT_SETUP (rule R111). -/
def execEventSetup (recs : List Record) (s : State) : Result :=
  match newestRecord recs with
  | some r => dispatch r.req s
  | none => .refused .malformedEvent

/-- The end of a control transfer (rules R117, R119): `emit ArmSetup`, phase `WaitSetup`; `n` is not examined. -/
def endTransfer (s : State) : State := (s.emit .armSetup).setPhase .waitSetup

/-- EVENT_IN_DONE (rule R116). -/
def execEventInDone (ep : EpNum) (n : HWord) (s : State) : Result :=
  if ep ≠ 0#4 then .next (fatalTrap .nonzeroEp s)
  else
    match s.eng.phase with
    | .inData => inAdvance n s
    | .lastInData => inAdvance n s
    | .waitStatusIn => .next (endTransfer s)
    | .waitSetup => .next (error .inBadPhase s)
    | .outData => .next (error .inBadPhase s)
    | .waitStatusOut => .next (error .inBadPhase s)
    | .stalled => .next (error .inBadPhase s)

/-- EVENT_OUT_DONE (rule R118). -/
def execEventOutDone (ep : EpNum) (n : HWord) (s : State) : Result :=
  if ep ≠ 0#4 then .next (fatalTrap .nonzeroEp s)
  else
    match s.eng.phase with
    | .outData => outAdvance n s
    | .waitStatusOut => .next (endTransfer s)
    | .waitSetup => .next (error .outBadPhase s)
    | .inData => .next (error .outBadPhase s)
    | .lastInData => .next (error .outBadPhase s)
    | .waitStatusIn => .next (error .outBadPhase s)
    | .stalled => .next (error .outBadPhase s)

/-- EVENT_BUS_RESET (rule R230): every field of `S` but `S.fatal`; buffers are left; the one command is `ArmSetup`. -/
def execEventBusReset (s : State) : Result :=
  .next (({ s with eng := { Engine.reset with fatal := s.eng.fatal } }.setSendLen 0#16).emit .armSetup)

end Sys2Proof.Machine
end

