-- ==== Sys2Proof/Machine/Dispatch.lean ====
section
/-! DEFINITION. One arm per constructor of Instr. -/

namespace Sys2Proof.Machine

open Sys2Proof

def exec (i : Instr) (s : State) : Host.Outcome State Fault Refusal :=
  match i with
  -- standard requests (42_standard_requests.md)
  | .setAddress value index length => Sys2Proof.Machine.execSetAddress value index length s
  | .setConfiguration value index length => Sys2Proof.Machine.execSetConfiguration value index length s
  | .getConfiguration value index length => Sys2Proof.Machine.execGetConfiguration value index length s
  | .getStatusDevice value index length => Sys2Proof.Machine.execGetStatusDevice value index length s
  | .getStatusEndpoint value index length => Sys2Proof.Machine.execGetStatusEndpoint value index length s
  | .clearFeatureEndpoint value index length => Sys2Proof.Machine.execClearFeatureEndpoint value index length s
  | .setFeatureEndpoint value index length => Sys2Proof.Machine.execSetFeatureEndpoint value index length s
  | .getDescriptor value index length => Sys2Proof.Machine.execGetDescriptor value index length s
  -- the vendor request (43_vendor_requests.md)
  | .msOsDescriptor value index length => Sys2Proof.Machine.execMsOsDescriptor value index length s
  -- DFU requests (44_dfu_requests.md)
  | .dfuDnload value index length => Sys2Proof.Machine.execDfuDnload value index length s
  | .dfuGetstatus value index length => Sys2Proof.Machine.execDfuGetstatus value index length s
  | .dfuClrstatus value index length => Sys2Proof.Machine.execDfuClrstatus value index length s
  | .dfuGetstate value index length => Sys2Proof.Machine.execDfuGetstate value index length s
  | .dfuAbort value index length => Sys2Proof.Machine.execDfuAbort value index length s
  -- every other key (30_encoding.md rule R90)
  | .unknownKey key value index length => Sys2Proof.Machine.execUnknownKey key value index length s
  -- the events (40_control_state_machine.md, 70_reset_and_hazards.md)
  | .eventSetup recs => Sys2Proof.Machine.execEventSetup recs s
  | .eventInDone ep n => Sys2Proof.Machine.execEventInDone ep n s
  | .eventOutDone ep n => Sys2Proof.Machine.execEventOutDone ep n s
  | .eventBusReset => Sys2Proof.Machine.execEventBusReset s

end Sys2Proof.Machine
end

