-- ==== Sys2Proof/Machine/HostMoves.lean ====
section
/-! DEFINITION. The agents outside the engine: the host's moves at the reference transport (60_exceptions.md rule
R216) and the events of any other transport (rules R207, R209; 70_reset_and_hazards.md rule R243). -/

namespace Sys2Proof.Machine

open Sys2Proof

/-- The transport when a SETUP packet has arrived (rule R216 (1), 20_memory.md rule R60): armed packets dropped, halt
latches and `setup_armed` clear. -/
def Transport.setupArrived (p : Transport) : Transport where
  setupArmed := false
  inArmed := none
  outArmed := none
  haltIn := false
  haltOut := false
  address := p.address

/-- The transport after a bus reset (rule R216 (6)): "clears everything". -/
def Transport.cleared : Transport where
  setupArmed := false
  inArmed := none
  outArmed := none
  haltIn := false
  haltOut := false
  address := 0#7

/-- A SETUP packet that arrives back to back with the newest pending event, itself an undelivered SETUP of fewer than
three records, joins it (rule R216 (1), 30_encoding.md rule R81); otherwise there is none. -/
def joinSetup (r : Record) : List Event → Option (List Event)
  | [] => none
  | [.setup recs] => if recs.length < 3 then some [.setup (recs ++ [r])] else none
  | e :: es =>
    match joinSetup r es with
    | some es' => some (e :: es')
    | none => none

/-- Move (1): a SETUP packet, possible when `setup_armed`, or back to back with one that is not delivered yet, up to three in
all. When it is not possible the reference transport gives no event (log entry 11). It writes no memory: this transport writes
the bytes of an OUT packet when the packet arrives (R216 (3)), so a packet that is cancelled has written none. -/
def hostSetup (r : Record) (s : State) : State :=
  match joinSetup r s.pending with
  | some es => { s with pending := es, port := s.port.setupArrived }
  | none => if s.port.setupArmed then (s.setPort s.port.setupArrived).addPending (.setup [r]) else s

/-- The bytes the transport sends for an armed IN packet: `MemRead(a, k)` (rule R216 (2), 20_memory.md rule R58); from an
unaligned address, free bytes (93 U5, log entry 9). -/
def inPayload (p : Armed) (s : State) : Except Fault (List Byte × State) :=
  match p.addr with
  | none => .ok ([], s)
  | some a =>
    if isAligned s.cfg a then
      match memRead s a p.len with
      | .ok bs => .ok (bs, s)
      | .error e => .error e
    else
      .ok ((List.range p.len).map (fun i => Config.unalignedDmaByte (s.freeIdx + i)),
        { s with freeIdx := s.freeIdx + p.len })

/-- Moves (2), (4), (5): an IN transaction. -/
def hostIn (s : State) : Result :=
  if s.port.haltIn then .next (s.addWire .stall)
  else
    match s.port.inArmed with
    | none => .next (s.addWire .nak)
    | some p =>
      orFault (inPayload p s) fun (bs, t) =>
        .next (((t.addWire (.data bs)).setPort { t.port with inArmed := none }).addPending
          (.inDone 0#4 (BitVec.ofNat 16 p.len)))

/-- The transport's DMA writes bytes of an armed OUT packet into memory, no more than were armed (20_memory.md rule
R59); a packet without a buffer takes none. -/
def dmaWrite (p : Armed) (bs : List Byte) (s : State) : Except Fault State :=
  match p.addr with
  | none => .ok s
  | some a => memWrite s a (bs.take p.len)

/-- Moves (3), (4), (5): an OUT transaction with the given bytes. A packet longer than was armed is not a move of the
reference transport and does nothing. -/
def hostOut (bs : List Byte) (s : State) : Result :=
  if s.port.haltOut then .next (s.addWire .stall)
  else
    match s.port.outArmed with
    | none => .next (s.addWire .nak)
    | some p =>
      if bs.length ≤ p.len then
        orFault (dmaWrite p bs s) fun t =>
          .next ((t.setPort { t.port with outArmed := none }).addPending (.outDone 0#4 (BitVec.ofNat 16 bs.length)))
      else .next s

/-- A move of the host at the reference transport (rule R216). -/
def hostMove : HostMove → State → Result
  | .setupPacket r, s => .next (hostSetup r s)
  | .inToken, s => hostIn s
  | .outPacket bs, s => hostOut bs s
  | .busReset, s => .next ((s.setPort Transport.cleared).addPending .busReset)

/-- What the DMA has written of an OUT packet when the ownership window ends: the bytes `dma`, if a packet is armed
(20_memory.md rule R59). -/
def dmaInWindow (dma : List Byte) (s : State) : Except Fault State :=
  match s.port.outArmed with
  | none => .ok s
  | some p => dmaWrite p dma s

/-- Any transport makes an event pending (rules R207, R209, 70 R243). A completion of endpoint 0 uses up the packet
armed in its direction, if one is; a SETUP packet or a bus reset ends every ownership window (20 R60). Each of the three
that ends the window of an OUT packet finds the bytes `dma` in its buffer, whatever count is reported: 20 R59 lets the
transport write there in the whole window, also when the packet is then cancelled (DESIGN CHOICE, log entry 5: they reach
memory at this turn, and may be none). -/
def raiseEvent (e : Event) (dma : List Byte) (s : State) : Result :=
  match e with
  | .setup _ => orFault (dmaInWindow dma s) fun t => .next ((t.setPort t.port.setupArrived).addPending e)
  | .inDone ep _ =>
    if ep = 0#4 then .next ((s.setPort { s.port with inArmed := none }).addPending e) else .next (s.addPending e)
  | .outDone ep _ =>
    if ep = 0#4 then
      orFault (dmaInWindow dma s) fun t => .next ((t.setPort { t.port with outArmed := none }).addPending e)
    else .next (s.addPending e)
  | .busReset => orFault (dmaInWindow dma s) fun t => .next ((t.setPort Transport.cleared).addPending e)

end Sys2Proof.Machine
end

