-- ==== Sys2Proof/Machine/Step.lean ====
section
/-! DEFINITION. One step of the machine: the engine handles one event (40_control_state_machine.md rule R110), or an agent
outside it moves. -/

namespace Sys2Proof.Machine

open Sys2Proof

/-- One step. A configuration that breaks 20_memory.md rule R50 is refused (93 U22). After the fatal trap there is no step
(rule R110, 93 U13). With no move of the outside left, the engine waits (70_reset_and_hazards.md rule R233). -/
def step (s : State) : Host.Outcome State Fault Refusal :=
  if configOk s.cfg = false then .refused .badConfiguration
  else if s.eng.fatal then .fault .fatalHalt
  else
    match s.agenda with
    | [] => .next s
    | .host m :: _ => hostMove m s.takeTurn
    | .raise e dma :: _ => raiseEvent e dma s.takeTurn
    | .deliver k answers :: _ =>
      match s.pending[k]? with
      | some e => exec e.instr (s.takeEvent k answers)
      | none => .next s.takeTurn

/-- `s` with the instruction whose table word is `w` as the next event the engine handles. -/
def State.withFetchWord (s : State) (nbits w : Nat) : State := s.loadEvent (eventOfTableWord nbits w)

end Sys2Proof.Machine
end

