-- ==== Sys2Proof/Safety.lean ====
section
/-! DEFINITION. What the statements speak of: results of a step written out field by field from the rules (and not by
the functions of the machine), the invariant of a run, and runs of whole data stages. -/

namespace Sys2Proof.Machine

open Sys2Proof

/-! ### Results written out -/

/-- The parameters, the pending events, the outside's moves and inputs, what the host has seen and the free values used
are as before: no instruction changes them. -/
def SameOutside (s t : State) : Prop :=
  t.cfg = s.cfg ∧ t.pending = s.pending ∧ t.agenda = s.agenda ∧ t.answers = s.answers ∧ t.wire = s.wire ∧
    t.freeIdx = s.freeIdx

/-- Every byte of memory outside `a` to `a + n - 1` reads as before. -/
def SameOutsideRange (m m' : Memory) (a n : Nat) : Prop :=
  ∀ b, b < a ∨ a + n ≤ b → Memory.read m' b = Memory.read m b

/-- `s` after commands: they join the list and the transport has taken them, in order (00 R11, 60 R216). -/
def State.emitted (s : State) (cs : List Command) : State :=
  { s with commands := s.commands ++ cs, port := cs.foldl Transport.apply s.port }

/-- `s` after a SETUP step with the request `q` that ended in phase `p` with the commands `cs` and sent no reply:
the request is latched and the transfer context reset (40 R111), everything else is as before. -/
def State.requestEnded (s : State) (q : Req) (p : Phase) (cs : List Command) : State :=
  { s.emitted cs with
    eng := { s.eng with phase := p, xfer := ⟨0, 0#16, false⟩, req := q }
    sendLen := 0#16 }

/-- The commands of `error` (40 R114). -/
def errorCommands : List Command := [.stallIn, .stallOut, .armSetup]

/-- A request that ended in `error`. -/
def State.requestStalled (s : State) (q : Req) : State := s.requestEnded q .waitSetup errorCommands

/-- A request that ended in `ack`. -/
def State.requestAcked (s : State) (q : Req) : State := s.requestEnded q .waitStatusIn [.armIn none 0]

/-- `t` is `s` with one IN packet armed for `rem` bytes left from address `a` (41 R140 with 20 R55): the packet is
`min(rem, 64)` bytes; none, straight from an aligned address, or copied to `SCRATCH` first. -/
def InPacketArmed (s t : State) (a : Nat) (rem : HWord) : Prop :=
  (rem = 0#16 → t.mem = s.mem ∧ t.commands = s.commands ++ [.armIn none 0] ∧
    t.port = { s.port with inArmed := some ⟨none, 0⟩ }) ∧
  (rem ≠ 0#16 → a % s.cfg.align = 0 →
    t.mem = s.mem ∧ t.commands = s.commands ++ [.armIn (some a) (min rem.toNat 64)] ∧
    t.port = { s.port with inArmed := some ⟨some a, min rem.toNat 64⟩ }) ∧
  (rem ≠ 0#16 → a % s.cfg.align ≠ 0 →
    Memory.readBytes t.mem s.cfg.scratchBase (min rem.toNat 64) = Memory.readBytes s.mem a (min rem.toNat 64) ∧
    SameOutsideRange s.mem t.mem s.cfg.scratchBase (min rem.toNat 64) ∧
    t.commands = s.commands ++ [.armIn (some s.cfg.scratchBase) (min rem.toNat 64)] ∧
    t.port = { s.port with inArmed := some ⟨some s.cfg.scratchBase, min rem.toNat 64⟩ })

/-- The phase while an IN packet is armed and `rem` bytes are left (41 R140). -/
def phaseForRemaining (rem : HWord) : Phase := if rem.toNat < 64 then .lastInData else .inData

/-- `t` is `s` after a SETUP step with the request `q` that ended in `send` of `len` bytes, already clamped, from
address `a` (40 R112). (`sendLen` is this model's own, log entry 8.) -/
def ReplySent (s t : State) (q : Req) (a : Nat) (len : HWord) : Prop :=
  t.eng = { s.eng with
    phase := phaseForRemaining len
    xfer := ⟨a, len, decide (0 < len.toNat ∧ len.toNat % 64 = 0)⟩
    req := q } ∧
  InPacketArmed s t a len ∧ t.calls = s.calls ∧ t.sendLen = len ∧ SameOutside s t

/-- `t` is `s` after a SETUP step with the request `q` that made the calls `cs` and sent the reply `bs` from `REPLY`, cut
to the length asked for (42 R168). (`sendLen` is this model's own, log entry 8.) -/
def ReplyBuilt (s t : State) (q : Req) (bs : List Byte) (cs : List FwCall) : Prop :=
  t.eng = { s.eng with
    phase := .lastInData
    xfer := ⟨s.cfg.replyBase, BitVec.ofNat 16 (min bs.length q.length.toNat), false⟩
    req := q } ∧
  Memory.readBytes t.mem s.cfg.replyBase bs.length = bs ∧
  SameOutsideRange s.mem t.mem s.cfg.replyBase bs.length ∧
  t.commands = s.commands ++
    [if q.length = 0#16 then .armIn none 0 else .armIn (some s.cfg.replyBase) (min bs.length q.length.toNat)] ∧
  t.port = { s.port with
    inArmed := some (if q.length = 0#16 then ⟨none, 0⟩ else ⟨some s.cfg.replyBase, min bs.length q.length.toNat⟩) } ∧
  t.calls = s.calls ++ cs ∧ t.sendLen = BitVec.ofNat 16 (min bs.length q.length.toNat) ∧ SameOutside s t

/-- The command that `status_out()` emits under each reading of `STATUS_OUT_ARM` (40 R123, 93 U8). -/
def statusOutCommands : StatusOutArm → List Command
  | .armOut => [.armOut none 0]
  | .armSetup => [.armSetup]
  | .noCommand => []

/-- The call of `FW.download` that a completed DNLOAD packet makes (44 R190): offset, length and bytes of the packet
that the transfer context describes. -/
def dnloadForward (s : State) : FwCall :=
  .download s.eng.req.value s.eng.req.length (s.eng.req.length - s.eng.xfer.remaining)
    (BitVec.ofNat 16 (min s.eng.xfer.remaining.toNat 64)) (some s.eng.xfer.buffer)
    (Memory.readBytes s.mem s.eng.xfer.buffer (min s.eng.xfer.remaining.toNat 64))

/-- A command that the engine may emit (30 R85): no packet above `P`, the address absent exactly when the packet is
empty. -/
def Command.wellFormed : Command → Prop
  | .armIn a k => k ≤ 64 ∧ (a = none ↔ k = 0)
  | .armOut a k => k ≤ 64 ∧ (a = none ↔ k = 0)
  | .armSetup => True
  | .stallIn => True
  | .stallOut => True
  | .setAddress _ => True

/-- A region, as base and size, holds the address `x`. An empty region holds none. -/
def holdsAddress (r : Nat × Nat) (x : Nat) : Prop := r.1 ≤ x ∧ x < r.1 + r.2

/-- The configuration breaks 20 R50: a base is no multiple of `ALIGN`, or a region begins or ends past the top of the space or
holds address 0, or two regions share an address. What `regions` lists is `SCRATCH`, `REPLY`, `RXBUF`, `MS_OS_DESC` and every
descriptor's data (10 R33; log entry 3 says how far each reaches). -/
def LayoutBroken (c : Config) : Prop :=
  c.scratchBase % c.align ≠ 0 ∨ c.replyBase % c.align ≠ 0 ∨ c.rxbufBase % c.align ≠ 0 ∨
    (∃ r ∈ regions c, 2 ^ c.addrW ≤ r.1 ∨ 2 ^ c.addrW < r.1 + r.2 ∨ holdsAddress r 0) ∨
    (∃ (i j x : Nat) (r t : Nat × Nat), i < j ∧ (regions c)[i]? = some r ∧ (regions c)[j]? = some t ∧ holdsAddress r x ∧ holdsAddress t x)

/-! ### The invariant of a run -/

/-- What holds between two events (10 R37 to R40, 20 R62, 44 R190). -/
structure EngineInv (s : State) : Prop where
  /-- Memory is in canonical form. -/
  memCanonical : Memory.wf s.mem = true
  /-- R38: between two events the phase is never `Stalled`. -/
  notStalled : s.eng.phase ≠ .stalled
  /-- R39. -/
  inDataFull : s.eng.phase = .inData → 64 ≤ s.eng.xfer.remaining.toNat
  /-- R39. -/
  lastInDataShort : s.eng.phase = .lastInData → s.eng.xfer.remaining.toNat < 64
  /-- R39. -/
  outDataSome : s.eng.phase = .outData → 1 ≤ s.eng.xfer.remaining.toNat
  /-- R39: the armed packet is `min(remaining, P)` bytes. -/
  inPacketArmed : s.eng.phase = .inData ∨ s.eng.phase = .lastInData →
    ∃ a, s.commands.getLast? = some (.armIn a (min s.eng.xfer.remaining.toNat 64))
  /-- R39, and the packet stands where the transfer context points. -/
  outPacketArmed : s.eng.phase = .outData →
    s.commands.getLast? = some (.armOut (some s.eng.xfer.buffer) (min s.eng.xfer.remaining.toNat 64))
  /-- R40: `WaitSetup` has EP0 armed for SETUP. -/
  waitSetupArmed : s.eng.phase = .waitSetup → s.commands.getLast? = some .armSetup
  /-- R21: `WaitStatusIn` has the zero-length IN packet armed. -/
  waitStatusInArmed : s.eng.phase = .waitStatusIn → s.commands.getLast? = some (.armIn none 0)
  /-- R20: the pointer is an address of `ADDR_W` bits. -/
  bufferInSpace : s.eng.xfer.buffer < addrLimit s.cfg
  /-- R144: in `OutData` the request is DFU_DNLOAD; R190: `remaining <= total`; R145: the pointer has advanced by the
  bytes received. -/
  outDataDnload : s.eng.phase = .outData →
    s.eng.req.key = 0x0121#16 ∧ s.eng.xfer.remaining.toNat ≤ s.eng.req.length.toNat ∧
      s.eng.xfer.buffer + s.eng.xfer.remaining.toNat = s.cfg.rxbufBase + s.eng.req.length.toNat

/-! ### Runs of a whole data stage -/

/-- `k` IN completions, each reporting the armed length, with no other event between (41 R149). -/
def fullIn : Nat → State → Result
  | 0, s => .next s
  | k + 1, s => thenDo (exec (.eventInDone 0#4 (BitVec.ofNat 16 (min s.eng.xfer.remaining.toNat 64))) s) (fullIn k)

/-- `k` OUT completions, each reporting the armed length, with no other event between (41 R150). -/
def fullOut : Nat → State → Result
  | 0, s => .next s
  | k + 1, s => thenDo (exec (.eventOutDone 0#4 (BitVec.ofNat 16 (min s.eng.xfer.remaining.toNat 64))) s) (fullOut k)

/-- The lengths of the `ArmIn` commands of a list; any other command counts as no packet. -/
def armInLengths (cs : List Command) : List (Option Nat) :=
  cs.map fun c => match c with
    | .armIn _ k => some k
    | .armOut _ _ => none
    | .armSetup => none
    | .stallIn => none
    | .stallOut => none
    | .setAddress _ => none

/-- Packet `i` of an OUT transfer of `total` bytes into `b` (41 R150). -/
def outPacket (b total i : Nat) : Command := .armOut (some (b + 64 * i)) (min (total - 64 * i) 64)

/-- The call that packet `i` of a DNLOAD of `total` bytes makes (41 R150, 44 R191); the bytes are those at its address. -/
def outCall (value : HWord) (m : Memory) (b total i : Nat) : FwCall :=
  .download value (BitVec.ofNat 16 total) (BitVec.ofNat 16 (64 * i)) (BitVec.ofNat 16 (min (total - 64 * i) 64))
    (some (b + 64 * i)) (Memory.readBytes m (b + 64 * i) (min (total - 64 * i) 64))

end Sys2Proof.Machine
end

