-- ==== Sys2Proof/Certificates/Slice0/Obligations.lean ====
section
/-! DEFINITION. The statements for the provers. Each docstring names the rule of spec/ it formalises, or says that it
rests on a choice of the model and names the log entry. -/

open Sys2Proof Sys2Proof.Machine

/-! ### Reset, decoding, the step -/

/-- 70 R231: power-on reset is `S.fatal <- 0`, then everything R230 does, `emit ArmSetup` included; no event pending, the
transport armed for SETUP. -/
def Obligations.PowerOnResetArmsSetupWithEveryFieldZero : Prop :=
  State.reset.eng = ⟨.waitSetup, ⟨0, 0#16, false⟩, ⟨0#16, 0#16, 0#16, 0#16⟩, 0#7, 0#8, false⟩ ∧
  State.reset.commands = [.armSetup] ∧ State.reset.calls = [] ∧ State.reset.pending = [] ∧
  State.reset.port.setupArmed = true

/-- 95 section 2.1, nine of its vectors, E9 and E10 among them (bytes written out there), and the four event codes of 30 R84
(the byte layout after the code is log entry 7). `0x7E` is the example's vendor code. -/
def Obligations.WordsOfTheSpecDecodeAsItSays : Prop :=
  decode 0x7E#8 .setup [0x80#8, 0x06#8, 0x00#8, 0x01#8, 0x00#8, 0x00#8, 0x12#8, 0x00#8] =
    .ok (.getDescriptor 0x0100#16 0#16 18#16, []) ∧
  decode 0x7E#8 .setup [0x00#8, 0x05#8, 0x05#8, 0x00#8, 0x00#8, 0x00#8, 0x00#8, 0x00#8] =
    .ok (.setAddress 5#16 0#16 0#16, []) ∧
  decode 0x7E#8 .setup [0x21#8, 0x01#8, 0x02#8, 0x00#8, 0x00#8, 0x00#8, 0xC8#8, 0x00#8] =
    .ok (.dfuDnload 2#16 0#16 200#16, []) ∧
  decode 0x7E#8 .setup [0xA1#8, 0x03#8, 0x34#8, 0x12#8, 0x78#8, 0x56#8, 0xFF#8, 0xFF#8] =
    .ok (.dfuGetstatus 0x1234#16 0x5678#16 0xFFFF#16, []) ∧
  decode 0x7E#8 .setup [0xC0#8, 0x7E#8, 0x00#8, 0x00#8, 0x04#8, 0x00#8, 0x10#8, 0x00#8] =
    .ok (.msOsDescriptor 0#16 4#16 16#16, []) ∧
  decode 0x7E#8 .setup [0x06#8, 0x80#8, 0x00#8, 0x01#8, 0x00#8, 0x00#8, 0x12#8, 0x00#8] =
    .ok (.unknownKey 0x8006#16 0x0100#16 0#16 18#16, []) ∧
  decode 0x7E#8 .setup [0x81#8, 0x06#8, 0x00#8, 0x22#8, 0x00#8, 0x00#8, 0x09#8, 0x00#8] =
    .ok (.unknownKey 0x0681#16 0x2200#16 0#16 9#16, []) ∧
  decode 0x7E#8 .setup [0xFF#8, 0xFF#8, 0xFF#8, 0xFF#8, 0xFF#8, 0xFF#8, 0xFF#8, 0xFF#8] =
    .ok (.unknownKey 0xFFFF#16 0xFFFF#16 0xFFFF#16 0xFFFF#16, []) ∧
  decode 0x7E#8 .setup [0x00#8, 0x00#8, 0x00#8, 0x00#8, 0x00#8, 0x00#8, 0x00#8, 0x00#8] =
    .ok (.unknownKey 0#16 0#16 0#16 0#16, []) ∧
  decode 0x7E#8 .event [0x00#8, 0x00#8, 0x80#8, 0x06#8, 0x00#8, 0x01#8, 0x00#8, 0x00#8, 0x12#8, 0x00#8] =
    .ok (.eventSetup [⟨0x80#8, 0x06#8, 0x00#8, 0x01#8, 0x00#8, 0x00#8, 0x12#8, 0x00#8⟩], []) ∧
  decode 0x7E#8 .event [0x01#8, 0x00#8, 0x40#8, 0x00#8] = .ok (.eventInDone 0#4 64#16, []) ∧
  decode 0x7E#8 .event [0x02#8, 0x03#8, 0x08#8, 0x00#8] = .ok (.eventOutDone 3#4 8#16, []) ∧
  decode 0x7E#8 .event [0x03#8] = .ok (.eventBusReset, [])

/-- 30 R80, R88, R89, R90 and log entry 7: decoding the encoding of a well-formed instruction gives it back, with every
operand, whatever bytes follow and whatever the vendor code. -/
def Obligations.DecodeOfEncodeGivesTheInstructionBack : Prop :=
  ∀ (vc : Byte) (i : Instr) (rest : List Byte), i.wf vc = true →
    decode vc i.format (encode vc i ++ rest) = .ok (i, rest)

/-- 30 R80: every 8-byte sequence decodes, to a well-formed instruction whose encoding is those bytes: each record has one
meaning (R89: at most one key matches). -/
def Obligations.EveryRecordHasOneMeaning : Prop :=
  ∀ (vc : Byte) (r : Record),
    (decodeRecord vc r).wf vc = true ∧ (decodeRecord vc r).format = .setup ∧ encode vc (decodeRecord vc r) = r.bytes

/-- 40 R110: with `S.fatal = 1` there is no step (93 U13: stuck); otherwise the step that delivers a pending event is the
execution of that event's instruction. Around it the step only takes the turn from the agenda, the event from the pending
list (60 R207: delivered once) and sets the inputs of the step (log entry 5). -/
def Obligations.StepRunsTheDeliveredEvent : Prop :=
  ∀ (s : State), configOk s.cfg = true →
    (s.eng.fatal = true → step s = .fault .fatalHalt) ∧
    (∀ (k : Nat) (a : Answers) (ts : List Turn) (e : Event), s.eng.fatal = false → s.agenda = .deliver k a :: ts →
      s.pending[k]? = some e →
      step s = exec e.instr { s with agenda := ts, pending := s.pending.eraseIdx k, answers := a })

/-- 30 R81, R80, R89: a SETUP event of 1 to 3 records runs the instruction its newest record decodes to, and the older
records have no effect at all; with no record or more than three it cannot be formed. That the model refuses such an event, as
malformed, is its own choice (log entry 7). -/
def Obligations.SetupEventRunsItsNewestRecord : Prop :=
  ∀ (older : List Record) (r : Record) (s : State),
    (older.length ≤ 2 → exec (.eventSetup (older ++ [r])) s = exec (decodeRecord s.cfg.msftVendorCode r) s) ∧
    (3 ≤ older.length → exec (.eventSetup (older ++ [r])) s = .refused .malformedEvent) ∧
    exec (.eventSetup []) s = .refused .malformedEvent

/-- 20 R50, 93 U22: the model refuses every configuration in which a base is no multiple of `ALIGN`, a region wraps past the top
of the space or holds address 0, or two regions share an address; and no other. How far the regions reach, and that an empty
one holds no address, is log entry 3. -/
def Obligations.ConfigurationsThatBreakTheLayoutAreRefused : Prop :=
  ∀ (s : State),
    (LayoutBroken s.cfg → step s = .refused .badConfiguration) ∧ (¬ LayoutBroken s.cfg → configOk s.cfg = true)

/-- 70 R233: the engine waits; nothing happens until an event arrives. -/
def Obligations.WithoutAMoveTheEngineWaits : Prop :=
  ∀ (s : State), configOk s.cfg = true → s.eng.fatal = false → s.agenda = [] → step s = .next s

/-! ### The invariant -/

/-- 10 R37 to R40, R20, R21; 20 R62; 44 R190: what holds between two events is kept by every step, of the engine and of the
agents outside it, from every state in which it holds. -/
def Obligations.StepKeepsTheInvariant : Prop :=
  ∀ (s t : State), EngineInv s → step s = .next t → EngineInv t

/-- The invariant holds after power-on reset. -/
def Obligations.ResetMeetsTheInvariant : Prop := EngineInv State.reset

/-- Log entry 2: no step changes the parameters. -/
def Obligations.StepKeepsTheParameters : Prop :=
  ∀ (s t : State), step s = .next t → t.cfg = s.cfg

/-! ### The exception path -/

/-- 40 R122: `error(c); error(c')` leaves the state that `error(c)` leaves; the command list is the three commands twice. -/
def Obligations.TwoErrorsLeaveTheStateOfOne : Prop :=
  ∀ (c c' : ErrorCause) (s : State),
    error c' (error c s) =
      { error c s with commands := s.commands ++ (errorCommands ++ errorCommands) } ∧
    (error c s).eng = { s.eng with phase := .waitSetup } ∧ (error c s).commands = s.commands ++ errorCommands

/-- 40 R114: `error(c)` stalls both halves, returns to `WaitSetup`, arms SETUP, in this order, and writes nothing else:
not `S.xfer`, `S.req`, `S.dev_addr`, `S.config`, `S.fatal`, nor memory. -/
def Obligations.ErrorStallsBothHalvesAndRearmsSetup : Prop :=
  ∀ (c : ErrorCause) (s : State),
    error c s = { s with
      eng := { s.eng with phase := .waitSetup }
      commands := s.commands ++ [.stallIn, .stallOut, .armSetup]
      port := { s.port with haltIn := true, haltOut := true, setupArmed := true } }

/-- 60 R204, 40 R116, R118: a completion that names an endpoint other than 0 takes the fatal trap, in every phase: `S.fatal`
is set, nothing else is written, nothing is emitted; and from then on no step is taken for any event (93 U13: stuck, which
the model says by a fault). -/
def Obligations.NonzeroEndpointTakesTheFatalTrap : Prop :=
  ∀ (ep : EpNum) (n : HWord) (s : State), ep ≠ 0#4 →
    exec (.eventInDone ep n) s = .next { s with eng := { s.eng with fatal := true } } ∧
    exec (.eventOutDone ep n) s = .next { s with eng := { s.eng with fatal := true } } ∧
    (configOk s.cfg = true → step { s with eng := { s.eng with fatal := true } } = .fault .fatalHalt)

/-! ### Events -/

/-- 70 R230: a bus reset writes every field of `S` except `S.fatal`, emits `ArmSetup` alone, calls nobody and leaves the
buffers. (`sendLen` is this model's own, log entry 8.) -/
def Obligations.BusResetReinitializesAllButFatal : Prop :=
  ∀ (s : State),
    exec .eventBusReset s = .next { s with
      eng := ⟨.waitSetup, ⟨0, 0#16, false⟩, ⟨0#16, 0#16, 0#16, 0#16⟩, 0#7, 0#8, s.eng.fatal⟩
      commands := s.commands ++ [.armSetup]
      port := { s.port with setupArmed := true }
      sendLen := 0#16 }

/-- 40 R117, R119: the status stage is over: `ArmSetup`, phase `WaitSetup`; the count is not examined. -/
def Obligations.StatusCompletionRearmsSetup : Prop :=
  ∀ (n : HWord) (s : State),
    (s.eng.phase = .waitStatusIn → exec (.eventInDone 0#4 n) s = .next { s with
      eng := { s.eng with phase := .waitSetup }
      commands := s.commands ++ [.armSetup]
      port := { s.port with setupArmed := true } }) ∧
    (s.eng.phase = .waitStatusOut → exec (.eventOutDone 0#4 n) s = .next { s with
      eng := { s.eng with phase := .waitSetup }
      commands := s.commands ++ [.armSetup]
      port := { s.port with setupArmed := true } })

/-- 40 R116, R118 (last rows): a completion in any other phase is a protocol violation: both directions are stalled, phase
`WaitSetup`, everything else as before, whatever the count. -/
def Obligations.CompletionInAWrongPhaseStalls : Prop :=
  ∀ (n : HWord) (s : State),
    (s.eng.phase ≠ .inData ∧ s.eng.phase ≠ .lastInData ∧ s.eng.phase ≠ .waitStatusIn →
      exec (.eventInDone 0#4 n) s = .next { s.emitted errorCommands with eng := { s.eng with phase := .waitSetup } }) ∧
    (s.eng.phase ≠ .outData ∧ s.eng.phase ≠ .waitStatusOut →
      exec (.eventOutDone 0#4 n) s = .next { s.emitted errorCommands with eng := { s.eng with phase := .waitSetup } })

/-- 41 R147: an event that reports more than was armed, `min(remaining, P)`, has no meaning. -/
def Obligations.CountAboveTheArmedLengthFaults : Prop :=
  ∀ (n : HWord) (s : State), min s.eng.xfer.remaining.toNat 64 < n.toNat →
    (s.eng.phase = .inData ∨ s.eng.phase = .lastInData → exec (.eventInDone 0#4 n) s = .fault .countExceedsArmed) ∧
    (s.eng.phase = .outData → exec (.eventOutDone 0#4 n) s = .fault .countExceedsArmed)

/-- 20 R62, 41 R142, R145: the advance of the pointer faults when the sum is `2^ADDR_W` or more (an OUT packet of a request
other than DNLOAD, or a DNLOAD packet that is accepted). -/
def Obligations.PointerAdvanceOutOfTheSpaceFaults : Prop :=
  ∀ (n : HWord) (s : State), n.toNat ≤ min s.eng.xfer.remaining.toNat 64 →
    2 ^ s.cfg.addrW ≤ s.eng.xfer.buffer + n.toNat →
    (s.eng.phase = .inData ∨ s.eng.phase = .lastInData → exec (.eventInDone 0#4 n) s = .fault .addrRange) ∧
    (s.eng.phase = .outData → s.answers.download = true → exec (.eventOutDone 0#4 n) s = .fault .addrRange)

/-- 41 R141 to R143, R140, 20 R55: an IN packet has completed and bytes are left: the reported count is subtracted and
added to the pointer, and the next packet is armed, staged when its address is unaligned; nothing else changes. A packet that
would be staged from outside the address space has no outcome (20 R62). The model stages every unaligned packet, as R55 says,
when `STAGE_LONG_UNALIGNED` is true. -/
def Obligations.InCompletionArmsTheNextPacket : Prop :=
  ∀ (n rem : HWord) (a : Nat) (s : State), Memory.wf s.mem = true → configOk s.cfg = true →
    s.cfg.stageLongUnaligned = true → s.eng.phase = .inData ∨ s.eng.phase = .lastInData →
    n.toNat ≤ min s.eng.xfer.remaining.toNat 64 → rem = s.eng.xfer.remaining - n → rem ≠ 0#16 →
    a = s.eng.xfer.buffer + n.toNat → a < 2 ^ s.cfg.addrW →
    (a % s.cfg.align = 0 ∨ a + min rem.toNat 64 ≤ 2 ^ s.cfg.addrW →
      ∃ t, exec (.eventInDone 0#4 n) s = .next t ∧
        t.eng = { s.eng with phase := phaseForRemaining rem, xfer := ⟨a, rem, s.eng.xfer.zlp⟩ } ∧
        InPacketArmed s t a rem ∧ t.calls = s.calls ∧ t.sendLen = s.sendLen ∧ SameOutside s t) ∧
    (a % s.cfg.align ≠ 0 → 2 ^ s.cfg.addrW < a + min rem.toNat 64 →
      exec (.eventInDone 0#4 n) s = .fault .addrRange)

/-- 41 R143, 40 R123: the last bytes of an IN transfer have completed: with `zlp` set it is cleared and the zero-length packet
armed, phase `LastInData`; else the status stage is entered. Which command enters it is `STATUS_OUT_ARM` (93 U8). -/
def Obligations.LastInCompletionSendsTheZeroLengthPacketOrEntersStatus : Prop :=
  ∀ (n : HWord) (s : State), s.eng.phase = .inData ∨ s.eng.phase = .lastInData →
    n.toNat ≤ 64 → n = s.eng.xfer.remaining → s.eng.xfer.buffer + n.toNat < 2 ^ s.cfg.addrW →
    (s.eng.xfer.zlp = true → exec (.eventInDone 0#4 n) s = .next { s.emitted [.armIn none 0] with
      eng := { s.eng with phase := .lastInData, xfer := ⟨s.eng.xfer.buffer + n.toNat, 0#16, false⟩ } }) ∧
    (s.eng.xfer.zlp = false → exec (.eventInDone 0#4 n) s = .next { s.emitted (statusOutCommands s.cfg.statusOutArm) with
      eng := { s.eng with phase := .waitStatusOut, xfer := ⟨s.eng.xfer.buffer + n.toNat, 0#16, false⟩ } })

/-- 41 R144 to R146, 44 R190: a DNLOAD packet has completed and the Firmware-Update Engine accepts it: it was handed the
bytes of the packet, with the offset of the bytes received before; then the count is subtracted and added to the pointer, and
the transfer is acknowledged, the next packet armed, or, outside `RXBUF`, there is no outcome (20 R62). -/
def Obligations.AcceptedDnloadPacketAdvancesTheTransfer : Prop :=
  ∀ (n : HWord) (s : State), s.eng.phase = .outData → s.eng.req.key = 0x0121#16 → s.answers.download = true →
    n.toNat ≤ min s.eng.xfer.remaining.toNat 64 →
    s.eng.xfer.buffer + min s.eng.xfer.remaining.toNat 64 ≤ 2 ^ s.cfg.addrW →
    s.eng.xfer.buffer + n.toNat < 2 ^ s.cfg.addrW →
    (s.eng.xfer.remaining = n → exec (.eventOutDone 0#4 n) s = .next { s.emitted [.armIn none 0] with
      eng := { s.eng with
        phase := .waitStatusIn, xfer := ⟨s.eng.xfer.buffer + n.toNat, 0#16, s.eng.xfer.zlp⟩ }
      calls := s.calls ++ [dnloadForward s] }) ∧
    (s.eng.xfer.remaining ≠ n → s.cfg.rxbufBase ≤ s.eng.xfer.buffer + n.toNat →
      s.eng.xfer.buffer + n.toNat + min (s.eng.xfer.remaining - n).toNat 64 ≤ s.cfg.rxbufBase + s.cfg.rxBufSize →
      exec (.eventOutDone 0#4 n) s =
        .next { s.emitted [.armOut (some (s.eng.xfer.buffer + n.toNat)) (min (s.eng.xfer.remaining - n).toNat 64)] with
          eng := { s.eng with xfer := ⟨s.eng.xfer.buffer + n.toNat, s.eng.xfer.remaining - n, s.eng.xfer.zlp⟩ }
          calls := s.calls ++ [dnloadForward s] }) ∧
    (s.eng.xfer.remaining ≠ n →
      s.eng.xfer.buffer + n.toNat < s.cfg.rxbufBase ∨
        s.cfg.rxbufBase + s.cfg.rxBufSize <
          s.eng.xfer.buffer + n.toNat + min (s.eng.xfer.remaining - n).toNat 64 →
      exec (.eventOutDone 0#4 n) s = .fault .rxbufOverrun)

/-- 41 R144, 44 R190: the Firmware-Update Engine rejects a DNLOAD packet: `error`; `S.xfer` keeps the values it had before
the event, and the call has been made. -/
def Obligations.RejectedDnloadPacketStallsAndKeepsTheContext : Prop :=
  ∀ (n : HWord) (s : State), s.eng.phase = .outData → s.eng.req.key = 0x0121#16 → s.answers.download = false →
    n.toNat ≤ min s.eng.xfer.remaining.toNat 64 →
    s.eng.xfer.buffer + min s.eng.xfer.remaining.toNat 64 ≤ 2 ^ s.cfg.addrW →
    exec (.eventOutDone 0#4 n) s = .next { s.emitted errorCommands with
      eng := { s.eng with phase := .waitSetup }
      calls := s.calls ++ [dnloadForward s] }

/-- 40 R120: the phase after each completion and after a bus reset, for every phase before it; and nothing but a non-zero
endpoint sets `S.fatal`. `r'` is what is left after the count is subtracted. -/
def Obligations.CompletionsMoveThePhaseAsTheTableSays : Prop :=
  ∀ (n : HWord) (s t : State),
    (exec (.eventInDone 0#4 n) s = .next t → t.eng.fatal = s.eng.fatal ∧
      (s.eng.phase = .inData ∨ s.eng.phase = .lastInData →
        (64 ≤ (s.eng.xfer.remaining - n).toNat → t.eng.phase = .inData) ∧
        ((s.eng.xfer.remaining - n).toNat < 64 → s.eng.xfer.remaining ≠ n ∨ s.eng.xfer.zlp = true →
          t.eng.phase = .lastInData) ∧
        (s.eng.xfer.remaining = n → s.eng.xfer.zlp = false → t.eng.phase = .waitStatusOut)) ∧
      (s.eng.phase ≠ .inData → s.eng.phase ≠ .lastInData → t.eng.phase = .waitSetup)) ∧
    (exec (.eventOutDone 0#4 n) s = .next t → t.eng.fatal = s.eng.fatal ∧
      (s.eng.phase = .outData → (s.eng.req.key = 0x0121#16 → s.answers.download = true) →
        t.eng.phase = if s.eng.xfer.remaining = n then .waitStatusIn else .outData) ∧
      (s.eng.phase = .outData → s.eng.req.key = 0x0121#16 → s.answers.download = false → t.eng.phase = .waitSetup) ∧
      (s.eng.phase ≠ .outData → t.eng.phase = .waitSetup)) ∧
    (exec .eventBusReset s = .next t → t.eng.phase = .waitSetup)

/-! ### Requests without a reply -/

/-- 42 R160: the address is `value[6:0]`, handed to the transport at once, before the status packet is armed; `index` and
`length` are not examined; there is no failing form. Nothing else changes. -/
def Obligations.SetAddressTakesSevenBitsAndAcknowledges : Prop :=
  ∀ (value index length : HWord) (s : State),
    exec (.setAddress value index length) s = .next
      (let t := s.requestEnded ⟨0x0500#16, value, index, length⟩ .waitStatusIn
        [.setAddress (value.setWidth 7), .armIn none 0]
       { t with eng := { t.eng with devAddr := value.setWidth 7 } })

/-- 42 R161: the configuration is `value[7:0]`, stored without a check; nothing else changes. -/
def Obligations.SetConfigurationStoresTheLowByteAndAcknowledges : Prop :=
  ∀ (value index length : HWord) (s : State),
    exec (.setConfiguration value index length) s = .next
      (let t := s.requestAcked ⟨0x0900#16, value, index, length⟩
       { t with eng := { t.eng with config := value.setWidth 8 } })

/-- 42 R165, R166: the valid form, `index = 0` and `value = 0`, only acknowledges: it touches neither a latch nor anything
else; any other `index` or `value` ends in `error`. The parameters of 93 U10 and U11 stand at the spec's decisions. -/
def Obligations.EndpointFeaturesAcknowledgeOnlyHaltOfEndpointZero : Prop :=
  ∀ (value index length : HWord) (s : State), s.cfg.decided →
    (index = 0#16 ∧ value = 0#16 →
      exec (.clearFeatureEndpoint value index length) s =
        .next (s.requestAcked ⟨0x0102#16, value, index, length⟩) ∧
      exec (.setFeatureEndpoint value index length) s =
        .next (s.requestAcked ⟨0x0302#16, value, index, length⟩)) ∧
    (index ≠ 0#16 ∨ value ≠ 0#16 →
      exec (.clearFeatureEndpoint value index length) s =
        .next (s.requestStalled ⟨0x0102#16, value, index, length⟩) ∧
      exec (.setFeatureEndpoint value index length) s =
        .next (s.requestStalled ⟨0x0302#16, value, index, length⟩))

/-- 93 U10, U11: the endpoint requests under every value of `FEATURE_HALT_EFFECT` and `EP_INDEX_MASK`. The index test is
`(index and EP_INDEX_MASK) != 0`, with the mask 0xFF7F that of an index other than 0 and 0x0080; an index or a value that fails
ends in `error` whatever the effect. A valid SET_FEATURE stalls both halves before it acknowledges with `stall_on_set`, a valid
CLEAR_FEATURE acknowledges only; with `always_error` both end in `error`. -/
def Obligations.EndpointFeaturesUnderTheOtherReadings : Prop :=
  ∀ (value index length : HWord) (s : State),
    (index &&& s.cfg.epIndexMask ≠ 0#16 ∨ value ≠ 0#16 ∨ s.cfg.featureHaltEffect = .alwaysError →
      exec (.setFeatureEndpoint value index length) s =
        .next (s.requestStalled ⟨0x0302#16, value, index, length⟩) ∧
      exec (.clearFeatureEndpoint value index length) s =
        .next (s.requestStalled ⟨0x0102#16, value, index, length⟩)) ∧
    (index &&& s.cfg.epIndexMask = 0#16 → value = 0#16 → s.cfg.featureHaltEffect ≠ .alwaysError →
      exec (.setFeatureEndpoint value index length) s = .next
        (s.requestEnded ⟨0x0302#16, value, index, length⟩ .waitStatusIn
          (if s.cfg.featureHaltEffect = .stallOnSet then [.stallIn, .stallOut, .armIn none 0] else [.armIn none 0])) ∧
      exec (.clearFeatureEndpoint value index length) s =
        .next (s.requestAcked ⟨0x0102#16, value, index, length⟩)) ∧
    (index &&& s.cfg.epIndexMask ≠ 0#16 →
      exec (.getStatusEndpoint value index length) s =
        .next (s.requestStalled ⟨0x0082#16, value, index, length⟩)) ∧
    (index &&& s.cfg.epIndexMask = 0#16 → Memory.wf s.mem = true → configOk s.cfg = true → s.cfg.zeroLenSend = .oneZlp →
      ∃ t, exec (.getStatusEndpoint value index length) s = .next t ∧
        ReplyBuilt s t ⟨0x0082#16, value, index, length⟩ [if s.answers.inHalted then 1#8 else 0#8, 0#8] []) ∧
    (s.cfg.epIndexMask = 0xFF7F#16 → (index &&& s.cfg.epIndexMask = 0#16 ↔ index = 0#16 ∨ index = 0x0080#16))

/-- 30 R90: every key that is none of the fourteen ends in `error`; its operands are latched and not examined. -/
def Obligations.UnknownKeysStall : Prop :=
  ∀ (s : State),
    (∀ (key value index length : HWord),
      exec (.unknownKey key value index length) s = .next (s.requestStalled ⟨key, value, index, length⟩)) ∧
    (∀ (r : Record), (∀ k : RequestKind, k.key s.cfg.msftVendorCode ≠ r.req.key) →
      exec (.eventSetup [r]) s = .next (s.requestStalled r.req))

/-- 44 R187, R189: `index` is tested before any call; with `index = 0` one call is made and its answer decides between the
acknowledgement and `error`. -/
def Obligations.ClrstatusAndAbortFollowTheAnswer : Prop :=
  ∀ (value index length : HWord) (s : State),
    (index ≠ 0#16 →
      exec (.dfuClrstatus value index length) s = .next (s.requestStalled ⟨0x0421#16, value, index, length⟩) ∧
      exec (.dfuAbort value index length) s = .next (s.requestStalled ⟨0x0621#16, value, index, length⟩)) ∧
    (index = 0#16 →
      exec (.dfuClrstatus value index length) s = .next
        (let t := if s.answers.clearStatus then s.requestAcked ⟨0x0421#16, value, index, length⟩
          else s.requestStalled ⟨0x0421#16, value, index, length⟩
         { t with calls := s.calls ++ [.clearStatus] }) ∧
      exec (.dfuAbort value index length) s = .next
        (let t := if s.answers.abort then s.requestAcked ⟨0x0621#16, value, index, length⟩
          else s.requestStalled ⟨0x0621#16, value, index, length⟩
         { t with calls := s.calls ++ [.abort] }))

/-- 44 R185, 40 R115, 20 R62: a bad `index` ends in `error` with no call; the zero-length form calls
`FW.download(value, 0, 0, 0, [])` and its answer decides; the nonzero form makes no call and arms
`ArmOut(RXBUF_BASE, min(length, 64))`. `length` is compared with nothing, so only a packet that does not fit `RXBUF` has no
outcome. -/
def Obligations.DnloadEndsTheBlockOrArmsTheReceiveBuffer : Prop :=
  ∀ (value index length : HWord) (s : State),
    (index ≠ 0#16 →
      exec (.dfuDnload value index length) s = .next (s.requestStalled ⟨0x0121#16, value, index, length⟩)) ∧
    (index = 0#16 → length = 0#16 →
      exec (.dfuDnload value index length) s = .next
        (let t := if s.answers.download then s.requestAcked ⟨0x0121#16, value, index, length⟩
          else s.requestStalled ⟨0x0121#16, value, index, length⟩
         { t with calls := s.calls ++ [.download value 0#16 0#16 0#16 none []] })) ∧
    (index = 0#16 → length ≠ 0#16 → min length.toNat 64 ≤ s.cfg.rxBufSize →
      exec (.dfuDnload value index length) s = .next
        (let t := s.requestEnded ⟨0x0121#16, value, index, length⟩ .outData
          [.armOut (some s.cfg.rxbufBase) (min length.toNat 64)]
         { t with eng := { t.eng with xfer := ⟨s.cfg.rxbufBase, length, false⟩ } })) ∧
    (index = 0#16 → length ≠ 0#16 → s.cfg.rxBufSize < min length.toNat 64 →
      exec (.dfuDnload value index length) s = .fault .rxbufOverrun)

/-! ### Requests with a reply -/

/-- 42 R162, R163, R168: the reply of GET_CONFIGURATION is the byte `config`; that of GET_STATUS(device) is `DEVICE_STATUS`,
low byte first. `value` and `index` are not examined.
(`sendLen` is this model's own, log entry 8.) -/
def Obligations.ConfigurationAndDeviceStatusAreReplied : Prop :=
  ∀ (value index length : HWord) (s : State), Memory.wf s.mem = true → configOk s.cfg = true →
    s.cfg.zeroLenSend = .oneZlp →
    (∃ t, exec (.getConfiguration value index length) s = .next t ∧
      ReplyBuilt s t ⟨0x0880#16, value, index, length⟩ [s.eng.config] []) ∧
    (∃ t, exec (.getStatusDevice value index length) s = .next t ∧
      ReplyBuilt s t ⟨0x0080#16, value, index, length⟩
        [s.cfg.deviceStatus.setWidth 8, (s.cfg.deviceStatus >>> 8).setWidth 8] [])

/-- 42 R164: the whole 16-bit `index` is compared with 0 and any other value ends in `error`; else the reply is `[h, 0]`, `h`
the halt latch as the transport reports it.
(`sendLen` is this model's own, log entry 8.) -/
def Obligations.EndpointStatusRepliesTheHaltBit : Prop :=
  ∀ (value index length : HWord) (s : State), Memory.wf s.mem = true → configOk s.cfg = true → s.cfg.decided →
    (index ≠ 0#16 →
      exec (.getStatusEndpoint value index length) s =
        .next (s.requestStalled ⟨0x0082#16, value, index, length⟩)) ∧
    (index = 0#16 →
      ∃ t, exec (.getStatusEndpoint value index length) s = .next t ∧
        ReplyBuilt s t ⟨0x0082#16, value, index, length⟩ [if s.answers.inHalted then 1#8 else 0#8, 0#8] [])

/-- 44 R186, R188: `index` is tested before the call; GETSTATUS replies the six bytes in the order returned, or ends in
`error` when there are none; GETSTATE replies the one byte.
(`sendLen` is this model's own, log entry 8.) -/
def Obligations.DfuStatusAndStateAreReplied : Prop :=
  ∀ (value index length : HWord) (s : State), Memory.wf s.mem = true → configOk s.cfg = true →
    s.cfg.zeroLenSend = .oneZlp →
    (index ≠ 0#16 →
      exec (.dfuGetstatus value index length) s = .next (s.requestStalled ⟨0x03A1#16, value, index, length⟩) ∧
      exec (.dfuGetstate value index length) s = .next (s.requestStalled ⟨0x05A1#16, value, index, length⟩)) ∧
    (index = 0#16 → s.answers.getStatus = none →
      exec (.dfuGetstatus value index length) s = .next
        { s.requestStalled ⟨0x03A1#16, value, index, length⟩ with calls := s.calls ++ [.getStatus] }) ∧
    (∀ st, index = 0#16 → s.answers.getStatus = some st →
      ∃ t, exec (.dfuGetstatus value index length) s = .next t ∧
        ReplyBuilt s t ⟨0x03A1#16, value, index, length⟩ [st.s0, st.s1, st.s2, st.s3, st.s4, st.s5] [.getStatus]) ∧
    (index = 0#16 →
      ∃ t, exec (.dfuGetstate value index length) s = .next t ∧
        ReplyBuilt s t ⟨0x05A1#16, value, index, length⟩ [s.answers.getState] [.getState])

/-- 42 R167, 40 R112, 41 R140: no entry whose selector is `value`: `error`, before anything is armed. Else the first such entry
is sent, cut to `length`: byte 0 of a string many bytes, the stored length of any other; `index` is not examined. A first
packet that would be staged from outside the address space has no outcome.
(`sendLen` is this model's own, log entry 8.) -/
def Obligations.GetDescriptorSendsTheFirstMatchingEntry : Prop :=
  ∀ (value index length : HWord) (s : State), Memory.wf s.mem = true → configOk s.cfg = true → s.cfg.decided →
    ((∀ e ∈ s.cfg.descTable, e.selector ≠ value) →
      exec (.getDescriptor value index length) s =
        .next (s.requestStalled ⟨0x0680#16, value, index, length⟩)) ∧
    (∀ (pre post : List DescEntry) (e : DescEntry) (n : Nat), s.cfg.descTable = pre ++ e :: post →
      e.selector = value → (∀ d ∈ pre, d.selector ≠ value) →
      n = (if value.toNat / 256 = 3 then (Memory.read s.mem e.data).toNat else e.length.toNat) →
      (e.data % s.cfg.align = 0 ∨ e.data + min (min n length.toNat) 64 ≤ 2 ^ s.cfg.addrW →
        ∃ t, exec (.getDescriptor value index length) s = .next t ∧
          ReplySent s t ⟨0x0680#16, value, index, length⟩ e.data (BitVec.ofNat 16 (min n length.toNat))) ∧
      (e.data % s.cfg.align ≠ 0 → 2 ^ s.cfg.addrW < e.data + min (min n length.toNat) 64 →
        exec (.getDescriptor value index length) s = .fault .addrRange))

/-- 43 R180: `index` other than `MSFT_INDEX` ends in `error`; else `MS_OS_DESC` is sent, cut to `length`.
(`sendLen` is this model's own, log entry 8.) -/
def Obligations.MsOsDescriptorIsSentForItsIndex : Prop :=
  ∀ (value index length : HWord) (s : State), Memory.wf s.mem = true → configOk s.cfg = true → s.cfg.decided →
    (index ≠ s.cfg.msftIndex →
      exec (.msOsDescriptor value index length) s = .next
        (s.requestStalled ⟨s.cfg.msftVendorCode ++ 0xC0#8, value, index, length⟩)) ∧
    (index = s.cfg.msftIndex →
      ∃ t, exec (.msOsDescriptor value index length) s = .next t ∧
        ReplySent s t ⟨s.cfg.msftVendorCode ++ 0xC0#8, value, index, length⟩ s.cfg.msOsData
          (BitVec.ofNat 16 (min s.cfg.msOsLength.toNat length.toNat)))

/-- 93 U2, U5: the other readings of `send` and of staging. With `straight_to_status` an empty reply enters the status stage
inside `send`. With `STAGE_LONG_UNALIGNED` false, when the clamped length is above one packet, the first packet and every later
one is armed where it lies, aligned or not; when it is not, an unaligned packet is staged as ever. Between the two steps the
model keeps the clamped length in `sendLen` (log entry 8). -/
def Obligations.SendUnderTheOtherReadings : Prop :=
  (∀ (a : Nat) (len requested cut : HWord) (s : State), cut.toNat = min len.toNat requested.toNat →
    (s.cfg.zeroLenSend = .straightToStatus → cut = 0#16 →
      send a len requested s = .next { s.emitted (statusOutCommands s.cfg.statusOutArm) with
        eng := { s.eng with phase := .waitStatusOut, xfer := ⟨a, 0#16, false⟩ }
        sendLen := 0#16 }) ∧
    (s.cfg.stageLongUnaligned = false → 64 < cut.toNat →
      send a len requested s = .next { s.emitted [.armIn (some a) 64] with
        eng := { s.eng with phase := .inData, xfer := ⟨a, cut, decide (cut.toNat % 64 = 0)⟩ }
        sendLen := cut }) ∧
    (s.cfg.stageLongUnaligned = false → 1 ≤ cut.toNat → cut.toNat ≤ 64 → Memory.wf s.mem = true →
      configOk s.cfg = true → a % s.cfg.align = 0 ∨ a + cut.toNat ≤ 2 ^ s.cfg.addrW →
      ∃ t, send a len requested s = .next t ∧
        t.eng = { s.eng with phase := phaseForRemaining cut, xfer := ⟨a, cut, decide (cut.toNat = 64)⟩ } ∧
        InPacketArmed s t a cut ∧ t.calls = s.calls ∧ t.sendLen = cut ∧ SameOutside s t)) ∧
  (∀ (n rem : HWord) (a : Nat) (s : State), s.cfg.stageLongUnaligned = false →
    s.eng.phase = .inData ∨ s.eng.phase = .lastInData → n.toNat ≤ min s.eng.xfer.remaining.toNat 64 →
    rem = s.eng.xfer.remaining - n → rem ≠ 0#16 → a = s.eng.xfer.buffer + n.toNat → a < 2 ^ s.cfg.addrW →
    (64 < s.sendLen.toNat →
      exec (.eventInDone 0#4 n) s = .next { s.emitted [.armIn (some a) (min rem.toNat 64)] with
        eng := { s.eng with phase := phaseForRemaining rem, xfer := ⟨a, rem, s.eng.xfer.zlp⟩ } }) ∧
    (s.sendLen.toNat ≤ 64 → Memory.wf s.mem = true → configOk s.cfg = true →
      a % s.cfg.align = 0 ∨ a + min rem.toNat 64 ≤ 2 ^ s.cfg.addrW →
      ∃ t, exec (.eventInDone 0#4 n) s = .next t ∧
        t.eng = { s.eng with phase := phaseForRemaining rem, xfer := ⟨a, rem, s.eng.xfer.zlp⟩ } ∧
        InPacketArmed s t a rem ∧ t.calls = s.calls ∧ t.sendLen = s.sendLen ∧ SameOutside s t))

/-! ### Whole-machine rules -/

/-- 40 R111, R121: a SETUP event of 1 to 3 records is handled whatever the phase, and `S.req` is then its newest record. What it
needs of the platform: a layout as 20 R50 says, room for one packet in `RXBUF`, and one packet's room behind each string
entry (else 20 R62 gives no outcome). -/
def Obligations.EverySetupEventIsHandled : Prop :=
  ∀ (older : List Record) (r : Record) (s : State), older.length ≤ 2 → configOk s.cfg = true → 64 ≤ s.cfg.rxBufSize →
    (∀ e ∈ s.cfg.descTable, e.data + 64 ≤ 2 ^ s.cfg.addrW) →
    ∃ t, exec (.eventSetup (older ++ [r])) s = .next t ∧ t.eng.req = r.req ∧ t.eng.fatal = s.eng.fatal ∧
      SameOutside s t

/-- 40 R124: a new SETUP supersedes everything: its step does not depend on `S.phase`, `S.xfer` or `S.req`. -/
def Obligations.SetupSupersedesTheTransferInProgress : Prop :=
  ∀ (recs : List Record) (s : State) (p : Phase) (x : Xfer) (q : Req),
    exec (.eventSetup recs) { s with eng := { s.eng with phase := p, xfer := x, req := q } } =
      exec (.eventSetup recs) s

/-- 40 R121, 60 R211: a SETUP step that ends in `error` (phase `WaitSetup`) has emitted exactly `StallIn, StallOut, ArmSetup`,
has written no memory and neither `dev_addr` nor `config`: every check comes before anything is armed. -/
def Obligations.ErroringSetupArmsNothing : Prop :=
  ∀ (recs : List Record) (s t : State), exec (.eventSetup recs) s = .next t → t.eng.phase = .waitSetup →
    t.commands = s.commands ++ [.stallIn, .stallOut, .armSetup] ∧ t.mem = s.mem ∧ t.eng.devAddr = s.eng.devAddr ∧
      t.eng.config = s.eng.config ∧ t.eng.xfer = ⟨0, 0#16, false⟩

/-- 10 R29, R30: `dev_addr` is written only by SET_ADDRESS and `config` only by SET_CONFIGURATION, as requests of their own or
as the newest record of a SETUP event, and both by a bus reset: whatever else is executed leaves them. -/
def Obligations.AddressAndConfigurationHaveOneWriterEach : Prop :=
  ∀ (i : Instr) (s t : State), exec i s = .next t → i ≠ .eventBusReset →
    (t.eng.devAddr ≠ s.eng.devAddr → (∃ v x l, i = .setAddress v x l) ∨
      ∃ older r, i = .eventSetup (older ++ [r]) ∧ r.req.key = 0x0500#16) ∧
    (t.eng.config ≠ s.eng.config → (∃ v x l, i = .setConfiguration v x l) ∨
      ∃ older r, i = .eventSetup (older ++ [r]) ∧ r.req.key = 0x0900#16)

/-- 20 R57, R58: whatever is executed, the engine writes no byte of memory outside `SCRATCH` and `REPLY`. -/
def Obligations.EngineWritesOnlyScratchAndReply : Prop :=
  ∀ (i : Instr) (s t : State), exec i s = .next t →
    ∀ a, (a < s.cfg.scratchBase ∨ s.cfg.scratchBase + 64 ≤ a) → (a < s.cfg.replyBase ∨ s.cfg.replyBase + 8 ≤ a) →
      Memory.read t.mem a = Memory.read s.mem a

/-- 30 R85: whatever is executed, the commands it adds are well formed: no `ArmIn` or `ArmOut` above `P`, the address absent
exactly when the packet is empty. -/
def Obligations.NoPacketAboveTheMaximumIsArmed : Prop :=
  ∀ (i : Instr) (s t : State), exec i s = .next t →
    ∃ cs, t.commands = s.commands ++ cs ∧ ∀ c ∈ cs, c.wellFormed

/-- 20 R55: with every unaligned packet staged (`STAGE_LONG_UNALIGNED` true) the transport is never handed an unaligned IN
buffer, whatever is executed. -/
def Obligations.NoUnalignedInBufferIsArmed : Prop :=
  ∀ (i : Instr) (s t : State), configOk s.cfg = true → s.cfg.stageLongUnaligned = true → exec i s = .next t →
    ∃ cs, t.commands = s.commands ++ cs ∧ ∀ a k, .armIn (some a) k ∈ cs → a % s.cfg.align = 0

/-- 00 R4, R11; 30 R85; 60 R216, R218: whatever is executed changes nothing of the parameters, the pending events, the agenda,
the inputs, what the host has seen, nor an earlier command or call; and the transport is changed by the commands that are added
and by nothing else, in the order emitted (20 R64 (c)). -/
def Obligations.ExecutionLeavesTheOutsideAlone : Prop :=
  ∀ (i : Instr) (s t : State), exec i s = .next t →
    SameOutside s t ∧ s.calls <+: t.calls ∧
    ∃ cs, t.commands = s.commands ++ cs ∧ t.port = cs.foldl Transport.apply s.port

/-! ### Whole data stages -/

/-- 41 R149: an IN data stage of clamped length `L`, every completion reporting the armed length: `floor(L/64)` packets of 64
bytes, then one packet of `L mod 64` bytes (the zero-length packet when that is 0, `L = 0` included); `InData` before each
completion of a full packet and `LastInData` before the last; `ceil(L/64)` packets are not empty; then the status
stage. -/
def Obligations.InTransferSendsItsPacketsThenTheStatusStage : Prop :=
  ∀ (a : Nat) (dataLen requested len : HWord) (s : State), configOk s.cfg = true → s.cfg.decided →
    len.toNat = min dataLen.toNat requested.toNat → a + len.toNat < 2 ^ s.cfg.addrW →
    (∀ j ≤ len.toNat / 64, ∃ u arms, thenDo (send a dataLen requested s) (fullIn j) = .next u ∧
      u.commands = s.commands ++ arms ∧
      armInLengths arms =
        List.replicate j (some 64) ++ [some (if j < len.toNat / 64 then 64 else len.toNat % 64)] ∧
      u.eng.phase = (if j < len.toNat / 64 then .inData else .lastInData) ∧
      (j = 0 → u.eng.xfer.zlp = decide (0 < len.toNat ∧ len.toNat % 64 = 0))) ∧
    (∃ t arms, thenDo (send a dataLen requested s) (fullIn (len.toNat / 64 + 1)) = .next t ∧
      t.eng.phase = .waitStatusOut ∧ t.commands = s.commands ++ arms ++ [.armOut none 0] ∧
      armInLengths arms = List.replicate (len.toNat / 64) (some 64) ++ [some (len.toNat % 64)] ∧
      ((armInLengths arms).filter (fun k => decide (k ≠ some 0))).length = (len.toNat + 63) / 64)

/-- 41 R150, 44 R191: a DNLOAD of `T >= 1` bytes, every completion reporting the armed length and every call accepted: packets
at `b`, `b + 64`, ... of 64 bytes and a last one of the rest; one call per packet with offsets 0, 64, ... and the bytes at its
address; then the acknowledgement, and the `IN_DONE` that follows returns to `WaitSetup`. -/
def Obligations.OutTransferForwardsEveryPacketThenAcknowledges : Prop :=
  ∀ (value total : HWord) (s : State), 1 ≤ total.toNat → total.toNat ≤ s.cfg.rxBufSize →
    s.cfg.rxbufBase + total.toNat < 2 ^ s.cfg.addrW → s.answers.download = true →
    ∃ t, thenDo (exec (.dfuDnload value 0#16 total) s) (fullOut ((total.toNat + 63) / 64)) = .next t ∧
      t.eng.phase = .waitStatusIn ∧ t.eng.xfer.remaining = 0#16 ∧ t.mem = s.mem ∧
      t.commands = s.commands ++
        (List.range ((total.toNat + 63) / 64)).map (outPacket s.cfg.rxbufBase total.toNat) ++ [.armIn none 0] ∧
      t.calls = s.calls ++
        (List.range ((total.toNat + 63) / 64)).map (outCall value s.mem s.cfg.rxbufBase total.toNat) ∧
      ∃ u, exec (.eventInDone 0#4 0#16) t = .next u ∧ u.eng.phase = .waitSetup

/-! ### Memory and the transport -/

/-- 20 R59, R64 (b): when an OUT packet of endpoint 0 completes, the bytes its DMA deposited stand in the armed buffer, wherever
the transport reports a count, and nothing else of memory changes. The bytes beyond the count are the environment's, any
value (log entry 5). -/
def Obligations.CompletedOutPacketStandsInItsBuffer : Prop :=
  ∀ (s : State) (n : HWord) (dma : List Byte) (ts : List Turn) (a : Nat), configOk s.cfg = true → s.eng.fatal = false →
    Memory.wf s.mem = true → s.agenda = .raise (.outDone 0#4 n) dma :: ts →
    s.port.outArmed = some ⟨some a, dma.length⟩ → a + dma.length ≤ 2 ^ s.cfg.addrW →
    ∃ t, step s = .next t ∧ Memory.readBytes t.mem a dma.length = dma ∧
      SameOutsideRange s.mem t.mem a dma.length ∧ t.pending = s.pending ++ [.outDone 0#4 n] ∧ t.eng = s.eng ∧
      t.port = { s.port with outArmed := none }

/-- 20 R59, R60: a SETUP packet or a bus reset that cancels an armed OUT packet: the transport may already have written bytes in
its buffer, any, none included; nothing else of memory changes, and the armed packets are dropped. That the bytes reach memory at
the turn that ends the window is the model's choice (log entry 5). -/
def Obligations.CancelledOutPacketWritesOnlyItsBuffer : Prop :=
  ∀ (s : State) (e : Event) (dma : List Byte) (ts : List Turn) (a k : Nat), configOk s.cfg = true → s.eng.fatal = false →
    Memory.wf s.mem = true → s.agenda = .raise e dma :: ts → (e = .busReset ∨ ∃ recs, e = .setup recs) →
    s.port.outArmed = some ⟨some a, k⟩ → dma.length ≤ k → a + k ≤ 2 ^ s.cfg.addrW →
    ∃ t, step s = .next t ∧ Memory.readBytes t.mem a dma.length = dma ∧
      SameOutsideRange s.mem t.mem a dma.length ∧
      t = { s with
        mem := t.mem
        agenda := ts
        pending := s.pending ++ [e]
        port := ⟨false, none, none, false, false, if e = .busReset then 0#7 else s.port.address⟩ }

/-- 60 R216, moves (1) to (6): what each move of the host does, for a SETUP packet when the newest pending event is no
SETUP. A SETUP packet that is not possible, and an OUT packet longer than was armed, change nothing (log entry 11). -/
def Obligations.HostMovesAtTheReferenceTransport : Prop :=
  ∀ (s : State),
    (∀ r, (∀ recs, s.pending.getLast? ≠ some (.setup recs)) →
      (s.port.setupArmed = true → hostMove (.setupPacket r) s = .next { s with
        pending := s.pending ++ [.setup [r]]
        port := ⟨false, none, none, false, false, s.port.address⟩ }) ∧
      (s.port.setupArmed = false → hostMove (.setupPacket r) s = .next s)) ∧
    (∀ a k, s.port.haltIn = false → s.port.inArmed = some ⟨some a, k⟩ → a % s.cfg.align = 0 → a + k ≤ 2 ^ s.cfg.addrW →
      hostMove .inToken s = .next { s with
        wire := s.wire ++ [.data (Memory.readBytes s.mem a k)]
        pending := s.pending ++ [.inDone 0#4 (BitVec.ofNat 16 k)]
        port := { s.port with inArmed := none } }) ∧
    (s.port.haltIn = false → s.port.inArmed = some ⟨none, 0⟩ →
      hostMove .inToken s = .next { s with
        wire := s.wire ++ [.data []]
        pending := s.pending ++ [.inDone 0#4 0#16]
        port := { s.port with inArmed := none } }) ∧
    (∀ a k bs, s.port.haltOut = false → s.port.outArmed = some ⟨some a, k⟩ → bs.length ≤ k → a + k ≤ 2 ^ s.cfg.addrW →
      Memory.wf s.mem = true →
      ∃ t, hostMove (.outPacket bs) s = .next t ∧ Memory.readBytes t.mem a bs.length = bs ∧
        SameOutsideRange s.mem t.mem a bs.length ∧
        t = { s with
          mem := t.mem
          pending := s.pending ++ [.outDone 0#4 (BitVec.ofNat 16 bs.length)]
          port := { s.port with outArmed := none } }) ∧
    (s.port.haltOut = false → s.port.outArmed = some ⟨none, 0⟩ →
      hostMove (.outPacket []) s = .next { s with
        pending := s.pending ++ [.outDone 0#4 0#16]
        port := { s.port with outArmed := none } }) ∧
    (∀ p bs, s.port.haltOut = false → s.port.outArmed = some p → p.len < bs.length →
      hostMove (.outPacket bs) s = .next s) ∧
    (s.port.haltIn = true → hostMove .inToken s = .next { s with wire := s.wire ++ [.stall] }) ∧
    (∀ bs, s.port.haltOut = true → hostMove (.outPacket bs) s = .next { s with wire := s.wire ++ [.stall] }) ∧
    (s.port.haltIn = false → s.port.inArmed = none →
      hostMove .inToken s = .next { s with wire := s.wire ++ [.nak] }) ∧
    (∀ bs, s.port.haltOut = false → s.port.outArmed = none →
      hostMove (.outPacket bs) s = .next { s with wire := s.wire ++ [.nak] }) ∧
    hostMove .busReset s = .next { s with
      pending := s.pending ++ [.busReset], port := ⟨false, none, none, false, false, 0#7⟩ }

/-- 60 R216 (1), 30 R81: SETUP packets that arrive back to back before their event is delivered join it, up to three records, the
newest last; each of them drops the armed packets and clears the latches. -/
def Obligations.BackToBackSetupPacketsJoinOneEvent : Prop :=
  ∀ (earlier : List Event) (recs : List Record) (r : Record) (s : State), s.pending = earlier ++ [.setup recs] →
    (recs.length < 3 → hostMove (.setupPacket r) s = .next { s with
      pending := earlier ++ [.setup (recs ++ [r])]
      port := ⟨false, none, none, false, false, s.port.address⟩ }) ∧
    (3 ≤ recs.length → s.port.setupArmed = false → hostMove (.setupPacket r) s = .next s)

/-- 60 R216: the reference transport never names an endpoint other than 0 and never reports a count above the armed length, and
no move of the host writes the engine's record or what it has emitted. -/
def Obligations.ReferenceTransportKeepsItsContract : Prop :=
  ∀ (m : HostMove) (s t : State), hostMove m s = .next t →
    t.eng = s.eng ∧ t.commands = s.commands ∧ t.calls = s.calls ∧
    (∀ e ∈ t.pending, e ∈ s.pending ∨ (∃ recs, e = .setup recs ∧ 1 ≤ recs.length) ∨ e = .busReset ∨
      (∃ n p, e = .inDone 0#4 n ∧ s.port.inArmed = some p ∧ n.toNat ≤ p.len) ∨
      (∃ n p, e = .outDone 0#4 n ∧ s.port.outArmed = some p ∧ n.toNat ≤ p.len))

/-- 60 R202, R216: after an error the host gets STALL on its next IN or OUT transaction and no event; its next SETUP packet
clears both latches and is the newest record of a pending SETUP event. -/
def Obligations.HostSeesStallUntilItsNextSetup : Prop :=
  ∀ (c : ErrorCause) (s : State) (bs : List Byte) (r : Record),
    hostMove .inToken (error c s) = .next { error c s with wire := s.wire ++ [.stall] } ∧
    hostMove (.outPacket bs) (error c s) = .next { error c s with wire := s.wire ++ [.stall] } ∧
    ∃ (u : State) (older : List Record), hostMove (.setupPacket r) (error c s) = .next u ∧ older.length ≤ 2 ∧
      u.pending.getLast? = some (.setup (older ++ [r])) ∧
      u.port = ⟨false, none, none, false, false, s.port.address⟩ ∧ u.eng = (error c s).eng
end

