-- ==== Sys2Proof/Laws/State.lean ====
section
/-! SUPPORT. One lemma per field per update of State: what each update leaves of each field. -/

namespace Sys2Proof.Machine

open Sys2Proof

variable (s : State)

/-! ### setPhase -/

@[simp] theorem State.setPhase_cfg (p : Phase) : (s.setPhase p).cfg = s.cfg := rfl
@[simp] theorem State.setPhase_eng (p : Phase) : (s.setPhase p).eng = { s.eng with phase := p } := rfl
@[simp] theorem State.setPhase_mem (p : Phase) : (s.setPhase p).mem = s.mem := rfl
@[simp] theorem State.setPhase_port (p : Phase) : (s.setPhase p).port = s.port := rfl
@[simp] theorem State.setPhase_pending (p : Phase) : (s.setPhase p).pending = s.pending := rfl
@[simp] theorem State.setPhase_agenda (p : Phase) : (s.setPhase p).agenda = s.agenda := rfl
@[simp] theorem State.setPhase_answers (p : Phase) : (s.setPhase p).answers = s.answers := rfl
@[simp] theorem State.setPhase_commands (p : Phase) : (s.setPhase p).commands = s.commands := rfl
@[simp] theorem State.setPhase_calls (p : Phase) : (s.setPhase p).calls = s.calls := rfl
@[simp] theorem State.setPhase_wire (p : Phase) : (s.setPhase p).wire = s.wire := rfl
@[simp] theorem State.setPhase_sendLen (p : Phase) : (s.setPhase p).sendLen = s.sendLen := rfl
@[simp] theorem State.setPhase_freeIdx (p : Phase) : (s.setPhase p).freeIdx = s.freeIdx := rfl

/-! ### setXfer -/

@[simp] theorem State.setXfer_cfg (x : Xfer) : (s.setXfer x).cfg = s.cfg := rfl
@[simp] theorem State.setXfer_eng (x : Xfer) : (s.setXfer x).eng = { s.eng with xfer := x } := rfl
@[simp] theorem State.setXfer_mem (x : Xfer) : (s.setXfer x).mem = s.mem := rfl
@[simp] theorem State.setXfer_port (x : Xfer) : (s.setXfer x).port = s.port := rfl
@[simp] theorem State.setXfer_pending (x : Xfer) : (s.setXfer x).pending = s.pending := rfl
@[simp] theorem State.setXfer_agenda (x : Xfer) : (s.setXfer x).agenda = s.agenda := rfl
@[simp] theorem State.setXfer_answers (x : Xfer) : (s.setXfer x).answers = s.answers := rfl
@[simp] theorem State.setXfer_commands (x : Xfer) : (s.setXfer x).commands = s.commands := rfl
@[simp] theorem State.setXfer_calls (x : Xfer) : (s.setXfer x).calls = s.calls := rfl
@[simp] theorem State.setXfer_wire (x : Xfer) : (s.setXfer x).wire = s.wire := rfl
@[simp] theorem State.setXfer_sendLen (x : Xfer) : (s.setXfer x).sendLen = s.sendLen := rfl
@[simp] theorem State.setXfer_freeIdx (x : Xfer) : (s.setXfer x).freeIdx = s.freeIdx := rfl

/-! ### setReq -/

@[simp] theorem State.setReq_cfg (q : Req) : (s.setReq q).cfg = s.cfg := rfl
@[simp] theorem State.setReq_eng (q : Req) : (s.setReq q).eng = { s.eng with req := q } := rfl
@[simp] theorem State.setReq_mem (q : Req) : (s.setReq q).mem = s.mem := rfl
@[simp] theorem State.setReq_port (q : Req) : (s.setReq q).port = s.port := rfl
@[simp] theorem State.setReq_pending (q : Req) : (s.setReq q).pending = s.pending := rfl
@[simp] theorem State.setReq_agenda (q : Req) : (s.setReq q).agenda = s.agenda := rfl
@[simp] theorem State.setReq_answers (q : Req) : (s.setReq q).answers = s.answers := rfl
@[simp] theorem State.setReq_commands (q : Req) : (s.setReq q).commands = s.commands := rfl
@[simp] theorem State.setReq_calls (q : Req) : (s.setReq q).calls = s.calls := rfl
@[simp] theorem State.setReq_wire (q : Req) : (s.setReq q).wire = s.wire := rfl
@[simp] theorem State.setReq_sendLen (q : Req) : (s.setReq q).sendLen = s.sendLen := rfl
@[simp] theorem State.setReq_freeIdx (q : Req) : (s.setReq q).freeIdx = s.freeIdx := rfl

/-! ### setDevAddr -/

@[simp] theorem State.setDevAddr_cfg (d : DevAddr) : (s.setDevAddr d).cfg = s.cfg := rfl
@[simp] theorem State.setDevAddr_eng (d : DevAddr) : (s.setDevAddr d).eng = { s.eng with devAddr := d } := rfl
@[simp] theorem State.setDevAddr_mem (d : DevAddr) : (s.setDevAddr d).mem = s.mem := rfl
@[simp] theorem State.setDevAddr_port (d : DevAddr) : (s.setDevAddr d).port = s.port := rfl
@[simp] theorem State.setDevAddr_pending (d : DevAddr) : (s.setDevAddr d).pending = s.pending := rfl
@[simp] theorem State.setDevAddr_agenda (d : DevAddr) : (s.setDevAddr d).agenda = s.agenda := rfl
@[simp] theorem State.setDevAddr_answers (d : DevAddr) : (s.setDevAddr d).answers = s.answers := rfl
@[simp] theorem State.setDevAddr_commands (d : DevAddr) : (s.setDevAddr d).commands = s.commands := rfl
@[simp] theorem State.setDevAddr_calls (d : DevAddr) : (s.setDevAddr d).calls = s.calls := rfl
@[simp] theorem State.setDevAddr_wire (d : DevAddr) : (s.setDevAddr d).wire = s.wire := rfl
@[simp] theorem State.setDevAddr_sendLen (d : DevAddr) : (s.setDevAddr d).sendLen = s.sendLen := rfl
@[simp] theorem State.setDevAddr_freeIdx (d : DevAddr) : (s.setDevAddr d).freeIdx = s.freeIdx := rfl

/-! ### setConfig -/

@[simp] theorem State.setConfig_cfg (c : Byte) : (s.setConfig c).cfg = s.cfg := rfl
@[simp] theorem State.setConfig_eng (c : Byte) : (s.setConfig c).eng = { s.eng with config := c } := rfl
@[simp] theorem State.setConfig_mem (c : Byte) : (s.setConfig c).mem = s.mem := rfl
@[simp] theorem State.setConfig_port (c : Byte) : (s.setConfig c).port = s.port := rfl
@[simp] theorem State.setConfig_pending (c : Byte) : (s.setConfig c).pending = s.pending := rfl
@[simp] theorem State.setConfig_agenda (c : Byte) : (s.setConfig c).agenda = s.agenda := rfl
@[simp] theorem State.setConfig_answers (c : Byte) : (s.setConfig c).answers = s.answers := rfl
@[simp] theorem State.setConfig_commands (c : Byte) : (s.setConfig c).commands = s.commands := rfl
@[simp] theorem State.setConfig_calls (c : Byte) : (s.setConfig c).calls = s.calls := rfl
@[simp] theorem State.setConfig_wire (c : Byte) : (s.setConfig c).wire = s.wire := rfl
@[simp] theorem State.setConfig_sendLen (c : Byte) : (s.setConfig c).sendLen = s.sendLen := rfl
@[simp] theorem State.setConfig_freeIdx (c : Byte) : (s.setConfig c).freeIdx = s.freeIdx := rfl

/-! ### setFatal -/

@[simp] theorem State.setFatal_cfg : (s.setFatal).cfg = s.cfg := rfl
@[simp] theorem State.setFatal_eng : (s.setFatal).eng = { s.eng with fatal := true } := rfl
@[simp] theorem State.setFatal_mem : (s.setFatal).mem = s.mem := rfl
@[simp] theorem State.setFatal_port : (s.setFatal).port = s.port := rfl
@[simp] theorem State.setFatal_pending : (s.setFatal).pending = s.pending := rfl
@[simp] theorem State.setFatal_agenda : (s.setFatal).agenda = s.agenda := rfl
@[simp] theorem State.setFatal_answers : (s.setFatal).answers = s.answers := rfl
@[simp] theorem State.setFatal_commands : (s.setFatal).commands = s.commands := rfl
@[simp] theorem State.setFatal_calls : (s.setFatal).calls = s.calls := rfl
@[simp] theorem State.setFatal_wire : (s.setFatal).wire = s.wire := rfl
@[simp] theorem State.setFatal_sendLen : (s.setFatal).sendLen = s.sendLen := rfl
@[simp] theorem State.setFatal_freeIdx : (s.setFatal).freeIdx = s.freeIdx := rfl

/-! ### setMem -/

@[simp] theorem State.setMem_cfg (m : Memory) : (s.setMem m).cfg = s.cfg := rfl
@[simp] theorem State.setMem_eng (m : Memory) : (s.setMem m).eng = s.eng := rfl
@[simp] theorem State.setMem_mem (m : Memory) : (s.setMem m).mem = m := rfl
@[simp] theorem State.setMem_port (m : Memory) : (s.setMem m).port = s.port := rfl
@[simp] theorem State.setMem_pending (m : Memory) : (s.setMem m).pending = s.pending := rfl
@[simp] theorem State.setMem_agenda (m : Memory) : (s.setMem m).agenda = s.agenda := rfl
@[simp] theorem State.setMem_answers (m : Memory) : (s.setMem m).answers = s.answers := rfl
@[simp] theorem State.setMem_commands (m : Memory) : (s.setMem m).commands = s.commands := rfl
@[simp] theorem State.setMem_calls (m : Memory) : (s.setMem m).calls = s.calls := rfl
@[simp] theorem State.setMem_wire (m : Memory) : (s.setMem m).wire = s.wire := rfl
@[simp] theorem State.setMem_sendLen (m : Memory) : (s.setMem m).sendLen = s.sendLen := rfl
@[simp] theorem State.setMem_freeIdx (m : Memory) : (s.setMem m).freeIdx = s.freeIdx := rfl

/-! ### setPort -/

@[simp] theorem State.setPort_cfg (p : Transport) : (s.setPort p).cfg = s.cfg := rfl
@[simp] theorem State.setPort_eng (p : Transport) : (s.setPort p).eng = s.eng := rfl
@[simp] theorem State.setPort_mem (p : Transport) : (s.setPort p).mem = s.mem := rfl
@[simp] theorem State.setPort_port (p : Transport) : (s.setPort p).port = p := rfl
@[simp] theorem State.setPort_pending (p : Transport) : (s.setPort p).pending = s.pending := rfl
@[simp] theorem State.setPort_agenda (p : Transport) : (s.setPort p).agenda = s.agenda := rfl
@[simp] theorem State.setPort_answers (p : Transport) : (s.setPort p).answers = s.answers := rfl
@[simp] theorem State.setPort_commands (p : Transport) : (s.setPort p).commands = s.commands := rfl
@[simp] theorem State.setPort_calls (p : Transport) : (s.setPort p).calls = s.calls := rfl
@[simp] theorem State.setPort_wire (p : Transport) : (s.setPort p).wire = s.wire := rfl
@[simp] theorem State.setPort_sendLen (p : Transport) : (s.setPort p).sendLen = s.sendLen := rfl
@[simp] theorem State.setPort_freeIdx (p : Transport) : (s.setPort p).freeIdx = s.freeIdx := rfl

/-! ### setSendLen -/

@[simp] theorem State.setSendLen_cfg (len : HWord) : (s.setSendLen len).cfg = s.cfg := rfl
@[simp] theorem State.setSendLen_eng (len : HWord) : (s.setSendLen len).eng = s.eng := rfl
@[simp] theorem State.setSendLen_mem (len : HWord) : (s.setSendLen len).mem = s.mem := rfl
@[simp] theorem State.setSendLen_port (len : HWord) : (s.setSendLen len).port = s.port := rfl
@[simp] theorem State.setSendLen_pending (len : HWord) : (s.setSendLen len).pending = s.pending := rfl
@[simp] theorem State.setSendLen_agenda (len : HWord) : (s.setSendLen len).agenda = s.agenda := rfl
@[simp] theorem State.setSendLen_answers (len : HWord) : (s.setSendLen len).answers = s.answers := rfl
@[simp] theorem State.setSendLen_commands (len : HWord) : (s.setSendLen len).commands = s.commands := rfl
@[simp] theorem State.setSendLen_calls (len : HWord) : (s.setSendLen len).calls = s.calls := rfl
@[simp] theorem State.setSendLen_wire (len : HWord) : (s.setSendLen len).wire = s.wire := rfl
@[simp] theorem State.setSendLen_sendLen (len : HWord) : (s.setSendLen len).sendLen = len := rfl
@[simp] theorem State.setSendLen_freeIdx (len : HWord) : (s.setSendLen len).freeIdx = s.freeIdx := rfl

/-! ### addPending -/

@[simp] theorem State.addPending_cfg (e : Event) : (s.addPending e).cfg = s.cfg := rfl
@[simp] theorem State.addPending_eng (e : Event) : (s.addPending e).eng = s.eng := rfl
@[simp] theorem State.addPending_mem (e : Event) : (s.addPending e).mem = s.mem := rfl
@[simp] theorem State.addPending_port (e : Event) : (s.addPending e).port = s.port := rfl
@[simp] theorem State.addPending_pending (e : Event) : (s.addPending e).pending = s.pending ++ [e] := rfl
@[simp] theorem State.addPending_agenda (e : Event) : (s.addPending e).agenda = s.agenda := rfl
@[simp] theorem State.addPending_answers (e : Event) : (s.addPending e).answers = s.answers := rfl
@[simp] theorem State.addPending_commands (e : Event) : (s.addPending e).commands = s.commands := rfl
@[simp] theorem State.addPending_calls (e : Event) : (s.addPending e).calls = s.calls := rfl
@[simp] theorem State.addPending_wire (e : Event) : (s.addPending e).wire = s.wire := rfl
@[simp] theorem State.addPending_sendLen (e : Event) : (s.addPending e).sendLen = s.sendLen := rfl
@[simp] theorem State.addPending_freeIdx (e : Event) : (s.addPending e).freeIdx = s.freeIdx := rfl

/-! ### addWire -/

@[simp] theorem State.addWire_cfg (w : HostSees) : (s.addWire w).cfg = s.cfg := rfl
@[simp] theorem State.addWire_eng (w : HostSees) : (s.addWire w).eng = s.eng := rfl
@[simp] theorem State.addWire_mem (w : HostSees) : (s.addWire w).mem = s.mem := rfl
@[simp] theorem State.addWire_port (w : HostSees) : (s.addWire w).port = s.port := rfl
@[simp] theorem State.addWire_pending (w : HostSees) : (s.addWire w).pending = s.pending := rfl
@[simp] theorem State.addWire_agenda (w : HostSees) : (s.addWire w).agenda = s.agenda := rfl
@[simp] theorem State.addWire_answers (w : HostSees) : (s.addWire w).answers = s.answers := rfl
@[simp] theorem State.addWire_commands (w : HostSees) : (s.addWire w).commands = s.commands := rfl
@[simp] theorem State.addWire_calls (w : HostSees) : (s.addWire w).calls = s.calls := rfl
@[simp] theorem State.addWire_wire (w : HostSees) : (s.addWire w).wire = s.wire ++ [w] := rfl
@[simp] theorem State.addWire_sendLen (w : HostSees) : (s.addWire w).sendLen = s.sendLen := rfl
@[simp] theorem State.addWire_freeIdx (w : HostSees) : (s.addWire w).freeIdx = s.freeIdx := rfl

/-! ### addCall -/

@[simp] theorem State.addCall_cfg (c : FwCall) : (s.addCall c).cfg = s.cfg := rfl
@[simp] theorem State.addCall_eng (c : FwCall) : (s.addCall c).eng = s.eng := rfl
@[simp] theorem State.addCall_mem (c : FwCall) : (s.addCall c).mem = s.mem := rfl
@[simp] theorem State.addCall_port (c : FwCall) : (s.addCall c).port = s.port := rfl
@[simp] theorem State.addCall_pending (c : FwCall) : (s.addCall c).pending = s.pending := rfl
@[simp] theorem State.addCall_agenda (c : FwCall) : (s.addCall c).agenda = s.agenda := rfl
@[simp] theorem State.addCall_answers (c : FwCall) : (s.addCall c).answers = s.answers := rfl
@[simp] theorem State.addCall_commands (c : FwCall) : (s.addCall c).commands = s.commands := rfl
@[simp] theorem State.addCall_calls (c : FwCall) : (s.addCall c).calls = s.calls ++ [c] := rfl
@[simp] theorem State.addCall_wire (c : FwCall) : (s.addCall c).wire = s.wire := rfl
@[simp] theorem State.addCall_sendLen (c : FwCall) : (s.addCall c).sendLen = s.sendLen := rfl
@[simp] theorem State.addCall_freeIdx (c : FwCall) : (s.addCall c).freeIdx = s.freeIdx := rfl

/-! ### emit -/

@[simp] theorem State.emit_cfg (c : Command) : (s.emit c).cfg = s.cfg := rfl
@[simp] theorem State.emit_eng (c : Command) : (s.emit c).eng = s.eng := rfl
@[simp] theorem State.emit_mem (c : Command) : (s.emit c).mem = s.mem := rfl
@[simp] theorem State.emit_port (c : Command) : (s.emit c).port = s.port.apply c := rfl
@[simp] theorem State.emit_pending (c : Command) : (s.emit c).pending = s.pending := rfl
@[simp] theorem State.emit_agenda (c : Command) : (s.emit c).agenda = s.agenda := rfl
@[simp] theorem State.emit_answers (c : Command) : (s.emit c).answers = s.answers := rfl
@[simp] theorem State.emit_commands (c : Command) : (s.emit c).commands = s.commands ++ [c] := rfl
@[simp] theorem State.emit_calls (c : Command) : (s.emit c).calls = s.calls := rfl
@[simp] theorem State.emit_wire (c : Command) : (s.emit c).wire = s.wire := rfl
@[simp] theorem State.emit_sendLen (c : Command) : (s.emit c).sendLen = s.sendLen := rfl
@[simp] theorem State.emit_freeIdx (c : Command) : (s.emit c).freeIdx = s.freeIdx := rfl

/-! ### takeTurn -/

@[simp] theorem State.takeTurn_cfg : (s.takeTurn).cfg = s.cfg := rfl
@[simp] theorem State.takeTurn_eng : (s.takeTurn).eng = s.eng := rfl
@[simp] theorem State.takeTurn_mem : (s.takeTurn).mem = s.mem := rfl
@[simp] theorem State.takeTurn_port : (s.takeTurn).port = s.port := rfl
@[simp] theorem State.takeTurn_pending : (s.takeTurn).pending = s.pending := rfl
@[simp] theorem State.takeTurn_agenda : (s.takeTurn).agenda = s.agenda.tail := rfl
@[simp] theorem State.takeTurn_answers : (s.takeTurn).answers = s.answers := rfl
@[simp] theorem State.takeTurn_commands : (s.takeTurn).commands = s.commands := rfl
@[simp] theorem State.takeTurn_calls : (s.takeTurn).calls = s.calls := rfl
@[simp] theorem State.takeTurn_wire : (s.takeTurn).wire = s.wire := rfl
@[simp] theorem State.takeTurn_sendLen : (s.takeTurn).sendLen = s.sendLen := rfl
@[simp] theorem State.takeTurn_freeIdx : (s.takeTurn).freeIdx = s.freeIdx := rfl

/-! ### takeEvent -/

@[simp] theorem State.takeEvent_cfg (k : Nat) (a : Answers) : (s.takeEvent k a).cfg = s.cfg := rfl
@[simp] theorem State.takeEvent_eng (k : Nat) (a : Answers) : (s.takeEvent k a).eng = s.eng := rfl
@[simp] theorem State.takeEvent_mem (k : Nat) (a : Answers) : (s.takeEvent k a).mem = s.mem := rfl
@[simp] theorem State.takeEvent_port (k : Nat) (a : Answers) : (s.takeEvent k a).port = s.port := rfl
@[simp] theorem State.takeEvent_pending (k : Nat) (a : Answers) : (s.takeEvent k a).pending = s.pending.eraseIdx k := rfl
@[simp] theorem State.takeEvent_agenda (k : Nat) (a : Answers) : (s.takeEvent k a).agenda = s.agenda.tail := rfl
@[simp] theorem State.takeEvent_answers (k : Nat) (a : Answers) : (s.takeEvent k a).answers = a := rfl
@[simp] theorem State.takeEvent_commands (k : Nat) (a : Answers) : (s.takeEvent k a).commands = s.commands := rfl
@[simp] theorem State.takeEvent_calls (k : Nat) (a : Answers) : (s.takeEvent k a).calls = s.calls := rfl
@[simp] theorem State.takeEvent_wire (k : Nat) (a : Answers) : (s.takeEvent k a).wire = s.wire := rfl
@[simp] theorem State.takeEvent_sendLen (k : Nat) (a : Answers) : (s.takeEvent k a).sendLen = s.sendLen := rfl
@[simp] theorem State.takeEvent_freeIdx (k : Nat) (a : Answers) : (s.takeEvent k a).freeIdx = s.freeIdx := rfl

/-! ### emitted -/

@[simp] theorem State.emitted_cfg (cs : List Command) : (s.emitted cs).cfg = s.cfg := rfl
@[simp] theorem State.emitted_eng (cs : List Command) : (s.emitted cs).eng = s.eng := rfl
@[simp] theorem State.emitted_mem (cs : List Command) : (s.emitted cs).mem = s.mem := rfl
@[simp] theorem State.emitted_port (cs : List Command) : (s.emitted cs).port = cs.foldl Transport.apply s.port := rfl
@[simp] theorem State.emitted_pending (cs : List Command) : (s.emitted cs).pending = s.pending := rfl
@[simp] theorem State.emitted_agenda (cs : List Command) : (s.emitted cs).agenda = s.agenda := rfl
@[simp] theorem State.emitted_answers (cs : List Command) : (s.emitted cs).answers = s.answers := rfl
@[simp] theorem State.emitted_commands (cs : List Command) : (s.emitted cs).commands = s.commands ++ cs := rfl
@[simp] theorem State.emitted_calls (cs : List Command) : (s.emitted cs).calls = s.calls := rfl
@[simp] theorem State.emitted_wire (cs : List Command) : (s.emitted cs).wire = s.wire := rfl
@[simp] theorem State.emitted_sendLen (cs : List Command) : (s.emitted cs).sendLen = s.sendLen := rfl
@[simp] theorem State.emitted_freeIdx (cs : List Command) : (s.emitted cs).freeIdx = s.freeIdx := rfl

end Sys2Proof.Machine
end

