-- ==== Sys2Proof/Laws/Ops.lean ====
section
/-! SUPPORT. One lemma per shared operation: everything it can do when it answers a next state. -/

namespace Sys2Proof.Machine

open Sys2Proof

/-! ### Outcomes -/

@[simp] theorem thenDo_next (s : State) (f : State → Result) : thenDo (.next s) f = f s := rfl

theorem thenDo_eq_next {r : Result} {f : State → Result} {t : State} (h : thenDo r f = .next t) :
    ∃ u, r = .next u ∧ f u = .next t := by
  cases r with
  | next u => exact ⟨u, rfl, h⟩
  | fault e => cases h
  | refused e => cases h

@[simp] theorem orFault_ok {α : Type} (a : α) (f : α → Result) : orFault (.ok a) f = f a := rfl

@[simp] theorem orFault_error {α : Type} (e : Fault) (f : α → Result) :
    orFault (.error e : Except Fault α) f = .fault e := rfl

theorem orFault_eq_next {α : Type} {r : Except Fault α} {f : α → Result} {t : State}
    (h : orFault r f = .next t) : ∃ a, r = .ok a ∧ f a = .next t := by
  cases r with
  | ok a => exact ⟨a, rfl, h⟩
  | error e => cases h

/-! ### Memory primitives -/

theorem memRead_ok {s : State} {a n : Nat} {bs : List Byte} (h : memRead s a n = .ok bs) :
    bs = Memory.readBytes s.mem a n ∧ (n = 0 ∨ a + n ≤ addrLimit s.cfg) := by
  unfold memRead at h
  split at h
  · next hin => cases h; exact ⟨rfl, by simpa [inSpace] using hin⟩
  · cases h

theorem memRead_of_fits {s : State} {a n : Nat} (h : a + n ≤ addrLimit s.cfg) :
    memRead s a n = .ok (Memory.readBytes s.mem a n) := by
  simp [memRead, inSpace, h]

theorem memWrite_ok {s t : State} {a : Nat} {bs : List Byte} (h : memWrite s a bs = .ok t) :
    t = s.setMem (Memory.writeBytes s.mem a bs) ∧ (bs = [] ∨ a + bs.length ≤ addrLimit s.cfg) := by
  unfold memWrite at h
  split at h
  · next hin => cases h; exact ⟨rfl, by simpa [inSpace] using hin⟩
  · cases h

theorem memWrite_of_fits {s : State} {a : Nat} {bs : List Byte} (h : a + bs.length ≤ addrLimit s.cfg) :
    memWrite s a bs = .ok (s.setMem (Memory.writeBytes s.mem a bs)) := by
  simp [memWrite, inSpace, h]

/-! ### What a well laid out configuration gives (20_memory.md rule R50) -/

theorem configOk_align {c : Config} (h : configOk c = true) : 0 < c.align := by
  simp only [configOk, Bool.and_eq_true, decide_eq_true_eq] at h; exact h.1.1.1.1.1

theorem configOk_bases {c : Config} (h : configOk c = true) :
    c.scratchBase % c.align = 0 ∧ c.replyBase % c.align = 0 ∧ c.rxbufBase % c.align = 0 := by
  simp only [configOk, Bool.and_eq_true, isAligned, beq_iff_eq] at h
  exact ⟨h.1.1.1.1.2, h.1.1.1.2, h.1.1.2⟩

theorem configOk_region {c : Config} (h : configOk c = true) {r : Nat × Nat} (hr : r ∈ regions c) :
    r.1 < addrLimit c ∧ r.1 + r.2 ≤ addrLimit c ∧ (r.2 = 0 ∨ 0 < r.1) := by
  simp only [configOk, Bool.and_eq_true, List.all_eq_true] at h
  simpa [regionPlaced] using h.1.2 r hr

theorem configOk_scratch {c : Config} (h : configOk c = true) : c.scratchBase + 64 ≤ addrLimit c :=
  (configOk_region h (r := (c.scratchBase, maxPacket)) (by simp [regions])).2.1

theorem configOk_reply {c : Config} (h : configOk c = true) :
    c.replyBase < addrLimit c ∧ c.replyBase + 8 ≤ addrLimit c :=
  have hr := configOk_region h (r := (c.replyBase, replySize)) (by simp [regions])
  ⟨hr.1, hr.2.1⟩

theorem configOk_rxbuf {c : Config} (h : configOk c = true) :
    c.rxbufBase < addrLimit c ∧ c.rxbufBase + c.rxBufSize ≤ addrLimit c :=
  have hr := configOk_region h (r := (c.rxbufBase, c.rxBufSize)) (by simp [regions])
  ⟨hr.1, hr.2.1⟩

theorem configOk_msOs {c : Config} (h : configOk c = true) :
    c.msOsData < addrLimit c ∧ c.msOsData + c.msOsLength.toNat ≤ addrLimit c :=
  have hr := configOk_region h (r := (c.msOsData, c.msOsLength.toNat)) (by simp [regions])
  ⟨hr.1, hr.2.1⟩

theorem configOk_entry {c : Config} (h : configOk c = true) {e : DescEntry} (he : e ∈ c.descTable) :
    e.data < addrLimit c ∧ e.data + entryExtent e ≤ addrLimit c :=
  have hr := configOk_region h (r := (e.data, entryExtent e)) (by simp [regions]; exact .inr (.inr (.inr (.inr ⟨e, he, rfl, rfl⟩))))
  ⟨hr.1, hr.2.1⟩

/-! ### Operations that cannot fail, as record updates -/

theorem error_eq (c : ErrorCause) (s : State) :
    error c s = { s.emitted errorCommands with eng := { s.eng with phase := .waitSetup } } := by
  simp [error, State.emitted, errorCommands, State.setPhase, State.emit]

theorem ack_eq (s : State) :
    ack s = { s.emitted [.armIn none 0] with eng := { s.eng with phase := .waitStatusIn } } := rfl

theorem statusOut_eq (s : State) :
    statusOut s =
      { s.emitted (statusOutCommands s.cfg.statusOutArm) with eng := { s.eng with phase := .waitStatusOut } } := by
  unfold statusOut
  split <;> next h => simp [h, statusOutCommands, State.emitted, State.setPhase, State.emit]

theorem beginSetup_eq (q : Req) (s : State) :
    beginSetup q s =
      { s with eng := { s.eng with phase := .waitSetup, xfer := ⟨0, 0#16, false⟩, req := q }, sendLen := 0#16 } := rfl

theorem endTransfer_eq (s : State) :
    endTransfer s = { s.emitted [.armSetup] with eng := { s.eng with phase := .waitSetup } } := rfl

/-! ### Arming -/

/-- What arming an IN packet of `k >= 1` bytes can do (20_memory.md rule R55). -/
theorem armIn_cases {a k : Nat} {s t : State} (h : armIn a k s = .next t) :
    ((isAligned s.cfg a = true ∨ stagesTransfer s.cfg s.sendLen = false) ∧ t = s.emit (.armIn (some a) k)) ∨
    (isAligned s.cfg a = false ∧ stagesTransfer s.cfg s.sendLen = true ∧ a + k ≤ addrLimit s.cfg ∨ k = 0) ∧
      t = (s.setMem (Memory.writeBytes s.mem s.cfg.scratchBase (Memory.readBytes s.mem a k))).emit
        (.armIn (some s.cfg.scratchBase) k) := by
  unfold armIn at h
  split at h
  · next hc => cases h; exact .inl ⟨by simpa using hc, rfl⟩
  · next hc =>
    obtain ⟨bs, hr, h⟩ := orFault_eq_next h
    obtain ⟨u, hw, h⟩ := orFault_eq_next h
    obtain ⟨rfl, hfit⟩ := memRead_ok hr
    obtain ⟨rfl, -⟩ := memWrite_ok hw
    cases h
    refine .inr ⟨?_, rfl⟩
    simp only [Bool.or_eq_true, Bool.not_eq_true', not_or, Bool.not_eq_true, Bool.not_eq_false] at hc
    rcases hfit with rfl | hfit
    · exact .inr rfl
    · exact .inl ⟨hc.1, hc.2, hfit⟩

/-- What `arm_in_next()` can do (41_data_stage_chunking.md rule R140). -/
theorem armInNext_cases {s t : State} (h : armInNext s = .next t) :
    (armedLength s.eng.xfer.remaining = 0 ∧
      t = (s.setPhase (inPhase s.eng.xfer.remaining)).emit (.armIn none 0)) ∨
    (armedLength s.eng.xfer.remaining ≠ 0 ∧
      armIn s.eng.xfer.buffer (armedLength s.eng.xfer.remaining) (s.setPhase (inPhase s.eng.xfer.remaining)) = .next t) := by
  unfold armInNext at h
  split at h
  · next hk => cases h; exact .inl ⟨hk, rfl⟩
  · next hk => exact .inr ⟨hk, h⟩

/-- What arming an OUT packet can do (20_memory.md rule R62). -/
theorem armOut_cases {a k : Nat} {s t : State} (h : armOut a k s = .next t) :
    (k = 0 ∧ t = s.emit (.armOut none 0)) ∨
    (k ≠ 0 ∧ s.cfg.rxbufBase ≤ a ∧ a + k ≤ s.cfg.rxbufBase + s.cfg.rxBufSize ∧ t = s.emit (.armOut (some a) k)) := by
  unfold armOut at h
  split at h
  · next hk => cases h; exact .inl ⟨hk, rfl⟩
  · next hk =>
    split at h
    · next hin =>
      cases h
      simp only [insideRxbuf, decide_eq_true_eq] at hin
      exact .inr ⟨hk, hin.1, hin.2, rfl⟩
    · cases h

/-! ### What the transport's DMA writes -/

/-- What the DMA of an armed OUT packet can do (20_memory.md rule R59): write bytes in the buffer, no more than armed. -/
theorem dmaWrite_ok {p : Armed} {bs : List Byte} {s t : State} (h : dmaWrite p bs s = .ok t) :
    ∃ m, t = s.setMem m ∧ (Memory.wf s.mem = true → Memory.wf m = true) ∧
      (∀ a, p.addr = some a → SameOutsideRange s.mem m a p.len) ∧ (p.addr = none → m = s.mem) := by
  unfold dmaWrite at h
  split at h
  · next ha => cases h; exact ⟨s.mem, rfl, id, fun a h => by simp [ha] at h, fun _ => rfl⟩
  · next a ha =>
    obtain ⟨rfl, -⟩ := memWrite_ok h
    refine ⟨_, rfl, fun hw => Memory.wf_writeBytes hw _ _, fun b hb x hx => ?_, fun h => by simp [ha] at h⟩
    obtain rfl : a = b := by simpa [ha] using hb
    exact Memory.read_writeBytes_outside _ _ _ (by rw [List.length_take]; omega)

/-- What the DMA has written when an ownership window ends (20_memory.md rules R59, R60). -/
theorem dmaInWindow_ok {dma : List Byte} {s t : State} (h : dmaInWindow dma s = .ok t) :
    ∃ m, t = s.setMem m ∧ (Memory.wf s.mem = true → Memory.wf m = true) ∧
      (∀ a k, s.port.outArmed = some ⟨some a, k⟩ → SameOutsideRange s.mem m a k) := by
  unfold dmaInWindow at h
  split at h
  · next hp => cases h; exact ⟨s.mem, rfl, id, fun a k h => by simp [hp] at h⟩
  · next p hp =>
    obtain ⟨m, rfl, hw, hm, -⟩ := dmaWrite_ok h
    refine ⟨m, rfl, hw, fun a k h => ?_⟩
    obtain rfl : p = ⟨some a, k⟩ := by simpa [hp] using h
    exact hm a rfl

/-- The DMA's bytes of an armed OUT packet that lies in the address space. -/
theorem dmaInWindow_armed {dma : List Byte} {a k : Nat} {s : State} (hp : s.port.outArmed = some ⟨some a, k⟩)
    (hl : dma.length ≤ k) (hfit : a + dma.length ≤ addrLimit s.cfg) :
    dmaInWindow dma s = .ok (s.setMem (Memory.writeBytes s.mem a dma)) := by
  simp [dmaInWindow, hp, dmaWrite, List.take_of_length_le hl, memWrite_of_fits hfit]

/-! ### Entry points -/

/-- What `send` can do (40_control_state_machine.md rule R112). -/
theorem send_cases {a : Nat} {dataLen requested : HWord} {s t : State} (h : send a dataLen requested s = .next t) :
    (s.cfg.zeroLenSend = .straightToStatus ∧ clampLength dataLen requested = 0#16 ∧
      t = statusOut (loadSend a (clampLength dataLen requested) s)) ∨
    armInNext (loadSend a (clampLength dataLen requested) s) = .next t := by
  unfold send at h
  split at h
  · next hc => cases h; exact .inl ⟨hc.1, hc.2, rfl⟩
  · exact .inr h

/-- What `recv` can do (rule R115). -/
theorem recv_cases {a : Nat} {length : HWord} {s t : State} (h : recv a length s = .next t) :
    ∃ u, armOut a (armedLength length) (s.setXfer ⟨a, length, false⟩) = .next u ∧ t = u.setPhase .outData := by
  obtain ⟨u, hu, h⟩ := thenDo_eq_next h
  cases h
  exact ⟨u, hu, rfl⟩

/-- What `reply` can do (42_standard_requests.md rule R168). -/
theorem reply_cases {bs : List Byte} {requested : HWord} {s t : State} (h : reply bs requested s = .next t) :
    send s.cfg.replyBase (BitVec.ofNat 16 bs.length) requested
      (s.setMem (Memory.writeBytes s.mem s.cfg.replyBase bs)) = .next t := by
  obtain ⟨u, hu, h⟩ := orFault_eq_next h
  obtain ⟨rfl, -⟩ := memWrite_ok hu
  exact h

/-! ### The data stage -/

/-- What the count update can do (41_data_stage_chunking.md rules R142, R145). -/
theorem advance_ok {n : HWord} {s t : State} (h : advance n s = .ok t) :
    s.eng.xfer.buffer + n.toNat < addrLimit s.cfg ∧
      t = s.setXfer ⟨s.eng.xfer.buffer + n.toNat, s.eng.xfer.remaining - n, s.eng.xfer.zlp⟩ := by
  unfold advance at h
  split at h
  · next hb => cases h; exact ⟨hb, rfl⟩
  · cases h

/-- What `in_advance` can do (rule R141). -/
theorem inAdvance_cases {n : HWord} {s t : State} (h : inAdvance n s = .next t) :
    n.toNat ≤ armedLength s.eng.xfer.remaining ∧ s.eng.xfer.buffer + n.toNat < addrLimit s.cfg ∧
      inNext (s.setXfer ⟨s.eng.xfer.buffer + n.toNat, s.eng.xfer.remaining - n, s.eng.xfer.zlp⟩) = .next t := by
  unfold inAdvance at h
  split at h
  · cases h
  · next hn =>
    obtain ⟨u, hu, h⟩ := orFault_eq_next h
    obtain ⟨hb, rfl⟩ := advance_ok hu
    exact ⟨by omega, hb, h⟩

/-- What follows a completed IN packet can be (rule R143). -/
theorem inNext_cases {s t : State} (h : inNext s = .next t) :
    (s.eng.xfer.remaining ≠ 0#16 ∧ armInNext s = .next t) ∨
    (s.eng.xfer.remaining = 0#16 ∧ s.eng.xfer.zlp = true ∧
      armInNext (s.setXfer { s.eng.xfer with zlp := false }) = .next t) ∨
    (s.eng.xfer.remaining = 0#16 ∧ s.eng.xfer.zlp = false ∧ t = statusOut s) := by
  unfold inNext at h
  split at h
  · next hr => exact .inl ⟨hr, h⟩
  · next hr =>
    have hr := not_not.mp hr
    split at h
    · next hz => exact .inr (.inl ⟨hr, hz, h⟩)
    · next hz => cases h; exact .inr (.inr ⟨hr, by simpa using hz, rfl⟩)

/-- What `forward_dnload()` can do (44_dfu_requests.md rule R190). -/
theorem forwardDnload_ok {s t : State} (h : forwardDnload s = .ok t) :
    t = s.addCall (downloadCall s (Memory.readBytes s.mem s.eng.xfer.buffer (armedLength s.eng.xfer.remaining))) := by
  unfold forwardDnload at h
  split at h
  · next hr => cases h; rw [(memRead_ok hr).1]
  · cases h

/-- What follows a completed OUT packet can be (41_data_stage_chunking.md rule R146). -/
theorem outNext_cases {s t : State} (h : outNext s = .next t) :
    (s.eng.xfer.remaining = 0#16 ∧ t = ack s) ∨
    (s.eng.xfer.remaining ≠ 0#16 ∧ armOut s.eng.xfer.buffer (armedLength s.eng.xfer.remaining) s = .next t) := by
  unfold outNext at h
  split at h
  · next hr => cases h; exact .inl ⟨hr, rfl⟩
  · next hr => exact .inr ⟨hr, h⟩

/-- What `out_advance` can do (rule R144): from a state in which the forwarding call, if there is one, has been made, reject
or advance. -/
theorem outAdvance_cases {n : HWord} {s t : State} (h : outAdvance n s = .next t) :
    n.toNat ≤ armedLength s.eng.xfer.remaining ∧
    ∃ u, (u = s ∧ s.eng.req.key ≠ 0x0121#16 ∨
        u = s.addCall (downloadCall s (Memory.readBytes s.mem s.eng.xfer.buffer (armedLength s.eng.xfer.remaining))) ∧
          s.eng.req.key = 0x0121#16) ∧
      (s.eng.req.key = 0x0121#16 ∧ s.answers.download = false ∧ t = error .dnloadRejected u ∨
       (s.eng.req.key = 0x0121#16 → s.answers.download = true) ∧
        s.eng.xfer.buffer + n.toNat < addrLimit s.cfg ∧
        outNext (u.setXfer ⟨s.eng.xfer.buffer + n.toNat, s.eng.xfer.remaining - n, s.eng.xfer.zlp⟩) = .next t) := by
  unfold outAdvance at h
  split at h
  · cases h
  · next hn =>
    refine ⟨by omega, ?_⟩
    split at h
    · next hk =>
      have hk : s.eng.req.key = 0x0121#16 := hk
      obtain ⟨u, hu, h⟩ := orFault_eq_next h
      obtain rfl := forwardDnload_ok hu
      refine ⟨_, .inr ⟨rfl, hk⟩, ?_⟩
      split at h
      · next hd =>
        obtain ⟨v, hv, h⟩ := orFault_eq_next h
        obtain ⟨hb, rfl⟩ := advance_ok hv
        exact .inr ⟨fun _ => hd, hb, h⟩
      · next hd => cases h; exact .inl ⟨hk, by simpa using hd, rfl⟩
    · next hk =>
      have hk : s.eng.req.key ≠ 0x0121#16 := hk
      obtain ⟨v, hv, h⟩ := orFault_eq_next h
      obtain ⟨hb, rfl⟩ := advance_ok hv
      exact ⟨s, .inl ⟨rfl, hk⟩, .inr ⟨fun hk' => absurd hk' hk, hb, h⟩⟩

end Sys2Proof.Machine
end

