-- ==== Sys2Proof/Laws/Effect.lean ====
section
/-! SUPPORT. What no operation of the engine can do: touch the outside, take back a command or a call, emit an ill-formed
command, or write memory outside `SCRATCH` and `REPLY`. One relation, one lemma per shared operation. -/

namespace Sys2Proof.Machine

open Sys2Proof

/-- A command that hands the transport an aligned IN buffer, or none (20_memory.md rule R55). -/
def Command.alignedIn (c : Config) : Command → Prop
  | .armIn (some a) _ => a % c.align = 0
  | .armIn none _ => True
  | .armOut _ _ => True
  | .armSetup => True
  | .stallIn => True
  | .stallOut => True
  | .setAddress _ => True

/-- The commands an operation may add. -/
def CommandsOk (c : Config) (cs : List Command) : Prop :=
  (∀ x ∈ cs, x.wellFormed) ∧ (configOk c = true → c.stageLongUnaligned = true → ∀ x ∈ cs, x.alignedIn c)

/-- What every operation of the engine keeps to. -/
structure Effect (s t : State) : Prop where
  outside : SameOutside s t
  calls : s.calls <+: t.calls
  commands : ∃ cs, t.commands = s.commands ++ cs ∧ t.port = cs.foldl Transport.apply s.port ∧ CommandsOk s.cfg cs
  memory : ∀ a, (a < s.cfg.scratchBase ∨ s.cfg.scratchBase + 64 ≤ a) →
    (a < s.cfg.replyBase ∨ s.cfg.replyBase + 8 ≤ a) → Memory.read t.mem a = Memory.read s.mem a
  canonical : Memory.wf s.mem = true → Memory.wf t.mem = true

theorem CommandsOk.nil (c : Config) : CommandsOk c [] := ⟨by simp, by simp⟩

theorem CommandsOk.append {c : Config} {cs ds : List Command} (h : CommandsOk c cs) (h' : CommandsOk c ds) :
    CommandsOk c (cs ++ ds) := by
  refine ⟨fun x hx => ?_, fun hc hs x hx => ?_⟩
  · rcases List.mem_append.mp hx with hx | hx
    · exact h.1 x hx
    · exact h'.1 x hx
  · rcases List.mem_append.mp hx with hx | hx
    · exact h.2 hc hs x hx
    · exact h'.2 hc hs x hx

theorem CommandsOk.one {c : Config} {x : Command} (h : x.wellFormed) (h' : x.alignedIn c) : CommandsOk c [x] :=
  ⟨by simpa using h, fun _ _ => by simpa using h'⟩

theorem Effect.refl (s : State) : Effect s s :=
  ⟨⟨rfl, rfl, rfl, rfl, rfl, rfl⟩, List.prefix_refl _, ⟨[], by simp, rfl, CommandsOk.nil _⟩, fun _ _ _ => rfl, id⟩

theorem Effect.trans {s t u : State} (h : Effect s t) (h' : Effect t u) : Effect s u := by
  obtain ⟨cs, hcs, hps, hok⟩ := h.commands
  obtain ⟨ds, hds, hpd, hok'⟩ := h'.commands
  have hcfg := h.outside.1
  refine ⟨?_, h.calls.trans h'.calls, ⟨cs ++ ds, by rw [hds, hcs, List.append_assoc],
    by rw [hpd, hps, List.foldl_append], hok.append (hcfg ▸ hok')⟩,
    fun a ha hb => ?_, h'.canonical ∘ h.canonical⟩
  · obtain ⟨a1, a2, a3, a4, a5, a6⟩ := h.outside
    obtain ⟨b1, b2, b3, b4, b5, b6⟩ := h'.outside
    exact ⟨b1.trans a1, b2.trans a2, b3.trans a3, b4.trans a4, b5.trans a5, b6.trans a6⟩
  · rw [h'.memory a (hcfg ▸ ha) (hcfg ▸ hb), h.memory a ha hb]

/-- An update of the engine's record and of `sendLen` alone. -/
theorem Effect.record (s : State) (e : Engine) (len : HWord) : Effect s { s with eng := e, sendLen := len } :=
  ⟨⟨rfl, rfl, rfl, rfl, rfl, rfl⟩, List.prefix_refl _, ⟨[], by simp, rfl, CommandsOk.nil _⟩, fun _ _ _ => rfl, id⟩

theorem Effect.emit (s : State) {c : Command} (h : c.wellFormed) (h' : c.alignedIn s.cfg) : Effect s (s.emit c) :=
  ⟨⟨rfl, rfl, rfl, rfl, rfl, rfl⟩, List.prefix_refl _, ⟨[c], rfl, rfl, CommandsOk.one h h'⟩, fun _ _ _ => rfl, id⟩

theorem Effect.addCall (s : State) (c : FwCall) : Effect s (s.addCall c) :=
  ⟨⟨rfl, rfl, rfl, rfl, rfl, rfl⟩, List.prefix_append _ _, ⟨[], by simp, rfl, CommandsOk.nil _⟩, fun _ _ _ => rfl, id⟩

theorem Effect.write (s : State) (a : Nat) (bs : List Byte)
    (h : s.cfg.scratchBase ≤ a ∧ a + bs.length ≤ s.cfg.scratchBase + 64 ∨
      s.cfg.replyBase ≤ a ∧ a + bs.length ≤ s.cfg.replyBase + 8) :
    Effect s (s.setMem (Memory.writeBytes s.mem a bs)) :=
  ⟨⟨rfl, rfl, rfl, rfl, rfl, rfl⟩, List.prefix_refl _, ⟨[], by simp, rfl, CommandsOk.nil _⟩,
    fun b hb hb' => Memory.read_writeBytes_outside s.mem a bs (by omega),
    fun hw => Memory.wf_writeBytes hw a bs⟩

theorem setPhase_effect (s : State) (p : Phase) : Effect s (s.setPhase p) := Effect.record s _ s.sendLen

theorem setXfer_effect (s : State) (x : Xfer) : Effect s (s.setXfer x) := Effect.record s _ s.sendLen

theorem error_effect (c : ErrorCause) (s : State) : Effect s (error c s) :=
  ((((setPhase_effect s .stalled).trans (Effect.emit _ (c := .stallIn) trivial trivial)).trans
    (Effect.emit _ (c := .stallOut) trivial trivial)).trans (setPhase_effect _ .waitSetup)).trans
      (Effect.emit _ (c := .armSetup) trivial trivial)

theorem ack_effect (s : State) : Effect s (ack s) :=
  (Effect.emit s (c := .armIn none 0) (by simp [Command.wellFormed]) trivial).trans (setPhase_effect _ _)

theorem endTransfer_effect (s : State) : Effect s (endTransfer s) :=
  (Effect.emit s (c := .armSetup) trivial trivial).trans (setPhase_effect _ _)

theorem statusOut_effect (s : State) : Effect s (statusOut s) := by
  unfold statusOut
  split
  · exact (setPhase_effect s _).trans (Effect.emit _ (by simp [Command.wellFormed]) trivial)
  · exact (setPhase_effect s _).trans (Effect.emit _ trivial trivial)
  · exact setPhase_effect s _

theorem beginSetup_effect (q : Req) (s : State) : Effect s (beginSetup q s) := Effect.record s _ _

theorem ackOrError_effect (b : Bool) (c : ErrorCause) (s : State) : Effect s (ackOrError b c s) := by
  cases b
  · exact error_effect c s
  · exact ack_effect s

theorem armedLength_le (rem : HWord) : armedLength rem ≤ 64 := by
  simp only [armedLength, maxPacket]; omega

theorem armIn_effect {a k : Nat} {s t : State} (hk : k ≤ 64) (hk0 : k ≠ 0) (h : armIn a k s = .next t) :
    Effect s t := by
  rcases armIn_cases h with ⟨hal, rfl⟩ | ⟨-, rfl⟩
  · refine ⟨⟨rfl, rfl, rfl, rfl, rfl, rfl⟩, List.prefix_refl _, ⟨[_], rfl, rfl, ?_, ?_⟩, fun _ _ _ => rfl, id⟩
    · simp [Command.wellFormed, hk, hk0]
    · intro _ hst x hx
      obtain rfl := List.mem_singleton.mp hx
      rcases hal with hal | hal
      · simpa [Command.alignedIn, isAligned] using hal
      · simp [stagesTransfer, hst] at hal
  · have hl : (Memory.readBytes s.mem a k).length = k := Memory.length_readBytes _ _ _
    refine (Effect.write s s.cfg.scratchBase (Memory.readBytes s.mem a k) (.inl ⟨Nat.le_refl _, by omega⟩)).trans ?_
    refine ⟨⟨rfl, rfl, rfl, rfl, rfl, rfl⟩, List.prefix_refl _, ⟨[_], rfl, rfl, ?_, ?_⟩, fun _ _ _ => rfl, id⟩
    · simp [Command.wellFormed, hk, hk0]
    · intro hc _ x hx
      obtain rfl := List.mem_singleton.mp hx
      exact (configOk_bases hc).1

theorem armInNext_effect {s t : State} (h : armInNext s = .next t) : Effect s t := by
  rcases armInNext_cases h with ⟨-, rfl⟩ | ⟨hk, h⟩
  · exact (setPhase_effect s _).trans (Effect.emit _ (by simp [Command.wellFormed]) trivial)
  · exact (setPhase_effect s _).trans (armIn_effect (armedLength_le _) hk h)

theorem armOut_effect {a k : Nat} {s t : State} (hk : k ≤ 64) (h : armOut a k s = .next t) : Effect s t := by
  rcases armOut_cases h with ⟨-, rfl⟩ | ⟨hk0, -, -, rfl⟩
  · exact Effect.emit s (by simp [Command.wellFormed]) trivial
  · exact Effect.emit s (by simp [Command.wellFormed, hk, hk0]) trivial

theorem loadSend_effect (a : Nat) (len : HWord) (s : State) : Effect s (loadSend a len s) := Effect.record s _ _

theorem send_effect {a : Nat} {dataLen requested : HWord} {s t : State} (h : send a dataLen requested s = .next t) :
    Effect s t := by
  rcases send_cases h with ⟨-, -, rfl⟩ | h
  · exact (loadSend_effect a _ s).trans (statusOut_effect _)
  · exact (loadSend_effect a _ s).trans (armInNext_effect h)

theorem recv_effect {a : Nat} {length : HWord} {s t : State} (h : recv a length s = .next t) : Effect s t := by
  obtain ⟨u, hu, rfl⟩ := recv_cases h
  exact ((setXfer_effect s _).trans (armOut_effect (armedLength_le _) hu)).trans (setPhase_effect _ _)

theorem reply_effect {bs : List Byte} {requested : HWord} {s t : State} (hl : bs.length ≤ 8)
    (h : reply bs requested s = .next t) : Effect s t :=
  (Effect.write s _ bs (.inr ⟨Nat.le_refl _, by omega⟩)).trans (send_effect (reply_cases h))

theorem inNext_effect {s t : State} (h : inNext s = .next t) : Effect s t := by
  rcases inNext_cases h with ⟨-, h⟩ | ⟨-, -, h⟩ | ⟨-, -, rfl⟩
  · exact armInNext_effect h
  · exact (setXfer_effect s _).trans (armInNext_effect h)
  · exact statusOut_effect s

theorem inAdvance_effect {n : HWord} {s t : State} (h : inAdvance n s = .next t) : Effect s t := by
  obtain ⟨-, -, h⟩ := inAdvance_cases h
  exact (setXfer_effect s _).trans (inNext_effect h)

theorem outNext_effect {s t : State} (h : outNext s = .next t) : Effect s t := by
  rcases outNext_cases h with ⟨-, rfl⟩ | ⟨-, h⟩
  · exact ack_effect s
  · exact armOut_effect (armedLength_le _) h

theorem outAdvance_effect {n : HWord} {s t : State} (h : outAdvance n s = .next t) : Effect s t := by
  obtain ⟨-, u, hu, h⟩ := outAdvance_cases h
  have hsu : Effect s u := by
    rcases hu with ⟨rfl, -⟩ | ⟨rfl, -⟩
    · exact Effect.refl _
    · exact Effect.addCall s _
  rcases h with ⟨-, -, rfl⟩ | ⟨-, -, h⟩
  · exact hsu.trans (error_effect _ u)
  · exact (hsu.trans (setXfer_effect u _)).trans (outNext_effect h)

end Sys2Proof.Machine
end

