-- ==== Sys2Proof/Laws/Answers.lean ====
section
/-! SUPPORT. When the shared operations answer a next state, and which: the counterparts of the `_cases` lemmas of
Laws/Ops.lean. -/

namespace Sys2Proof.Machine

open Sys2Proof

theorem armedLength_eq_zero {rem : HWord} : armedLength rem = 0 ↔ rem = 0#16 := by
  constructor
  · intro h
    apply BitVec.eq_of_toNat_eq
    simp only [armedLength, maxPacket] at h
    simp only [BitVec.toNat_ofNat, Nat.zero_mod]
    omega
  · rintro rfl; rfl

theorem sub_eq_zero_iff {a b : HWord} : a - b = 0#16 ↔ a = b := by
  constructor
  · intro h0
    have h := BitVec.sub_add_cancel a b
    rw [h0] at h
    simpa using h.symm
  · rintro rfl; simp

theorem sub_toNat {a b : HWord} (h : b.toNat ≤ a.toNat) : (a - b).toNat = a.toNat - b.toNat :=
  BitVec.toNat_sub_of_le (BitVec.le_def.mpr h)

theorem armedLength_sub {rem n : HWord} (h : n.toNat ≤ armedLength rem) : (rem - n).toNat = rem.toNat - n.toNat :=
  sub_toNat (by simp only [armedLength, maxPacket] at h; omega)

theorem clampLength_toNat (d r : HWord) : (clampLength d r).toNat = min d.toNat r.toNat := by
  unfold clampLength; split <;> omega

theorem phaseForRemaining_full {rem : HWord} (h : 64 ≤ rem.toNat) : phaseForRemaining rem = .inData :=
  if_neg (Nat.not_lt.mpr h)

theorem phaseForRemaining_short {rem : HWord} (h : rem.toNat < 64) : phaseForRemaining rem = .lastInData := if_pos h

/-! ### IN packets -/

theorem armIn_aligned {a k : Nat} {s : State} (h : a % s.cfg.align = 0) :
    armIn a k s = .next (s.emit (.armIn (some a) k)) := by
  simp [armIn, isAligned, h]

theorem armIn_unstaged {a k : Nat} {s : State} (h : stagesTransfer s.cfg s.sendLen = false) :
    armIn a k s = .next (s.emit (.armIn (some a) k)) := by
  simp [armIn, h]

theorem armIn_staged {a k : Nat} {s : State} (hc : configOk s.cfg = true) (ha : a % s.cfg.align ≠ 0)
    (hst : stagesTransfer s.cfg s.sendLen = true) (hk : k ≤ 64) (hfit : a + k ≤ addrLimit s.cfg) :
    armIn a k s = .next ((s.setMem (Memory.writeBytes s.mem s.cfg.scratchBase (Memory.readBytes s.mem a k))).emit
      (.armIn (some s.cfg.scratchBase) k)) := by
  have hs := configOk_scratch hc
  have hw : s.cfg.scratchBase + (Memory.readBytes s.mem a k).length ≤ addrLimit s.cfg := by
    rw [Memory.length_readBytes]; omega
  simp [armIn, isAligned, ha, hst, memRead_of_fits hfit, memWrite_of_fits hw]

/-- With `STAGE_LONG_UNALIGNED` true every unaligned packet is staged (20_memory.md rule R55). -/
theorem stagesTransfer_all {c : Config} {len : HWord} (h : c.stageLongUnaligned = true) : stagesTransfer c len = true := by
  simp [stagesTransfer, h]

/-- A transfer of one packet is staged under both readings (93 U5). -/
theorem stagesTransfer_short {c : Config} {len : HWord} (h : len.toNat ≤ 64) : stagesTransfer c len = true := by
  simp [stagesTransfer, maxPacket, h]

/-- A longer transfer is not, with `STAGE_LONG_UNALIGNED` false (93 U5). -/
theorem stagesTransfer_long {c : Config} {len : HWord} (h : c.stageLongUnaligned = false) (h' : 64 < len.toNat) :
    stagesTransfer c len = false := by
  simp only [stagesTransfer, maxPacket, h, Bool.false_or]
  exact decide_eq_false (by omega)

theorem armInNext_empty {s : State} (h : s.eng.xfer.remaining = 0#16) :
    armInNext s = .next ((s.setPhase .lastInData).emit (.armIn none 0)) := by
  simp [armInNext, h, armedLength, inPhase, maxPacket]

theorem armInNext_some {s : State} (h : s.eng.xfer.remaining ≠ 0#16) :
    armInNext s = armIn s.eng.xfer.buffer (armedLength s.eng.xfer.remaining) (s.setPhase (inPhase s.eng.xfer.remaining)) :=
  if_neg fun hk => h (armedLength_eq_zero.mp hk)

/-- `arm_in_next()` answers whenever the packet lies in the address space. -/
theorem armInNext_next {s : State} (hc : configOk s.cfg = true)
    (hfit : s.eng.xfer.buffer + armedLength s.eng.xfer.remaining ≤ addrLimit s.cfg) :
    ∃ t, armInNext s = .next t := by
  by_cases h : s.eng.xfer.remaining = 0#16
  · exact ⟨_, armInNext_empty h⟩
  · rw [armInNext_some h]
    by_cases ha : s.eng.xfer.buffer % s.cfg.align = 0
    · exact ⟨_, armIn_aligned ha⟩
    · cases hst : stagesTransfer s.cfg s.sendLen with
      | false => exact ⟨_, armIn_unstaged hst⟩
      | true => exact ⟨_, armIn_staged hc ha hst (armedLength_le _) hfit⟩

/-- The phase and the record after `arm_in_next()`. -/
theorem armInNext_eng {s t : State} (h : armInNext s = .next t) :
    t.eng = { s.eng with phase := phaseForRemaining s.eng.xfer.remaining } := by
  rcases armInNext_cases h with ⟨-, rfl⟩ | ⟨-, h⟩
  · rfl
  · rcases armIn_cases h with ⟨-, rfl⟩ | ⟨-, rfl⟩ <;> rfl

/-- The whole effect of `arm_in_next()` when an unaligned packet of this transfer is staged. -/
theorem armInNext_armed {s : State} (hw : Memory.wf s.mem = true) (hc : configOk s.cfg = true)
    (hst : stagesTransfer s.cfg s.sendLen = true)
    (hfit : s.eng.xfer.buffer % s.cfg.align = 0 ∨
      s.eng.xfer.buffer + armedLength s.eng.xfer.remaining ≤ addrLimit s.cfg) :
    ∃ t, armInNext s = .next t ∧
      t.eng = { s.eng with phase := phaseForRemaining s.eng.xfer.remaining } ∧
      InPacketArmed s t s.eng.xfer.buffer s.eng.xfer.remaining ∧
      t.calls = s.calls ∧ t.sendLen = s.sendLen ∧ SameOutside s t := by
  by_cases h : s.eng.xfer.remaining = 0#16
  · refine ⟨_, armInNext_empty h, ?_, ⟨fun _ => ⟨rfl, rfl, rfl⟩, fun h' => absurd h h', fun h' => absurd h h'⟩,
      rfl, rfl, ⟨rfl, rfl, rfl, rfl, rfl, rfl⟩⟩
    rw [h]; rfl
  · rw [armInNext_some h]
    by_cases ha : s.eng.xfer.buffer % s.cfg.align = 0
    · exact ⟨_, armIn_aligned ha, rfl,
        ⟨fun h' => absurd h' h, fun _ _ => ⟨rfl, rfl, rfl⟩, fun _ h' => absurd ha h'⟩,
        rfl, rfl, ⟨rfl, rfl, rfl, rfl, rfl, rfl⟩⟩
    · refine ⟨_, armIn_staged hc ha hst (armedLength_le _) (hfit.resolve_left ha), rfl,
        ⟨fun h' => absurd h' h, fun _ h' => absurd h' ha, fun _ _ => ⟨?_, fun b hb => ?_, rfl, rfl⟩⟩,
        rfl, rfl, ⟨rfl, rfl, rfl, rfl, rfl, rfl⟩⟩
      · have hb := Memory.readBytes_writeBytes hw s.cfg.scratchBase
          (Memory.readBytes s.mem s.eng.xfer.buffer (armedLength s.eng.xfer.remaining))
        rw [Memory.length_readBytes] at hb
        exact hb
      · exact Memory.read_writeBytes_outside _ _ _ (by rw [Memory.length_readBytes]; exact hb)

/-- An unaligned packet that leaves the address space has no outcome (20_memory.md rule R62). -/
theorem armInNext_outside {s : State} (hst : stagesTransfer s.cfg s.sendLen = true) (ha : s.eng.xfer.buffer % s.cfg.align ≠ 0)
    (hr : s.eng.xfer.remaining ≠ 0#16)
    (hout : addrLimit s.cfg < s.eng.xfer.buffer + armedLength s.eng.xfer.remaining) :
    armInNext s = .fault .addrRange := by
  have hk : armedLength s.eng.xfer.remaining ≠ 0 := fun h => hr (armedLength_eq_zero.mp h)
  have hin : inSpace s.cfg s.eng.xfer.buffer (armedLength s.eng.xfer.remaining) = false :=
    decide_eq_false (by omega)
  rw [armInNext_some hr]
  simp [armIn, isAligned, ha, hst, memRead, hin]

/-! ### OUT packets -/

theorem armOut_fits {a k : Nat} {s : State} (hk : k ≠ 0) (hlo : s.cfg.rxbufBase ≤ a)
    (hhi : a + k ≤ s.cfg.rxbufBase + s.cfg.rxBufSize) : armOut a k s = .next (s.emit (.armOut (some a) k)) := by
  simp [armOut, hk, insideRxbuf, hlo, hhi]

theorem armOut_overrun {a k : Nat} {s : State} (hk : k ≠ 0)
    (h : a < s.cfg.rxbufBase ∨ s.cfg.rxbufBase + s.cfg.rxBufSize < a + k) : armOut a k s = .fault .rxbufOverrun := by
  have hn : ¬ (s.cfg.rxbufBase ≤ a ∧ a + k ≤ s.cfg.rxbufBase + s.cfg.rxBufSize) := by omega
  simp [armOut, hk, insideRxbuf, hn]

theorem armOut_eng {a k : Nat} {s t : State} (h : armOut a k s = .next t) : t.eng = s.eng := by
  rcases armOut_cases h with ⟨-, rfl⟩ | ⟨-, -, -, rfl⟩ <;> rfl

/-! ### What follows a completed packet -/

theorem inNext_more {s : State} (h : s.eng.xfer.remaining ≠ 0#16) : inNext s = armInNext s := if_pos h

theorem inNext_zlp {s : State} (h : s.eng.xfer.remaining = 0#16) (hz : s.eng.xfer.zlp = true) :
    inNext s = armInNext (s.setXfer { s.eng.xfer with zlp := false }) := by
  simp [inNext, h, hz]

theorem inNext_done {s : State} (h : s.eng.xfer.remaining = 0#16) (hz : s.eng.xfer.zlp = false) :
    inNext s = .next (statusOut s) := by
  simp [inNext, h, hz]

theorem outNext_more {s : State} (h : s.eng.xfer.remaining ≠ 0#16) :
    outNext s = armOut s.eng.xfer.buffer (armedLength s.eng.xfer.remaining) s := if_neg h

theorem outNext_done {s : State} (h : s.eng.xfer.remaining = 0#16) : outNext s = .next (ack s) := if_pos h

/-- An IN completion of a data stage whose count and pointer are in range. -/
theorem inAdvance_eq {n : HWord} {s : State} (hn : n.toNat ≤ armedLength s.eng.xfer.remaining)
    (hb : s.eng.xfer.buffer + n.toNat < addrLimit s.cfg) :
    inAdvance n s =
      inNext (s.setXfer ⟨s.eng.xfer.buffer + n.toNat, s.eng.xfer.remaining - n, s.eng.xfer.zlp⟩) := by
  simp [inAdvance, Nat.not_lt.mpr hn, advance, hb]

/-- An OUT completion of an accepted DNLOAD packet whose count and pointer are in range. -/
theorem outAdvance_eq {n : HWord} {s : State} (hk : s.eng.req.key = 0x0121#16) (hd : s.answers.download = true)
    (hn : n.toNat ≤ armedLength s.eng.xfer.remaining)
    (hr : s.eng.xfer.buffer + armedLength s.eng.xfer.remaining ≤ addrLimit s.cfg)
    (hb : s.eng.xfer.buffer + n.toNat < addrLimit s.cfg) :
    outAdvance n s = outNext ((s.addCall (dnloadForward s)).setXfer
      ⟨s.eng.xfer.buffer + n.toNat, s.eng.xfer.remaining - n, s.eng.xfer.zlp⟩) := by
  simp only [outAdvance, Nat.not_lt.mpr hn, if_false, hk, RequestKind.key, if_true, forwardDnload,
    memRead_of_fits hr, orFault_ok, State.addCall_answers, hd, advance, State.addCall_eng, State.addCall_cfg, hb]
  rfl

/-! ### Replies -/

/-- `send` answers whenever its first packet lies in the address space. -/
theorem send_next {a : Nat} {dataLen requested : HWord} {s : State} (hc : configOk s.cfg = true)
    (hfit : a + min (min dataLen.toNat requested.toNat) 64 ≤ addrLimit s.cfg) :
    ∃ t, send a dataLen requested s = .next t := by
  unfold send
  split
  · exact ⟨_, rfl⟩
  · refine armInNext_next hc ?_
    simp only [loadSend, State.setSendLen_eng, State.setXfer_eng, State.setSendLen_cfg, State.setXfer_cfg,
      armedLength, maxPacket, clampLength_toNat]
    exact hfit

/-- The whole effect of `send` when an empty reply, if this is one, is a zero-length packet and an unaligned packet of this
transfer is staged. -/
theorem send_armed {a : Nat} {dataLen requested : HWord} {s : State} (hw : Memory.wf s.mem = true)
    (hc : configOk s.cfg = true) (hst : stagesTransfer s.cfg (clampLength dataLen requested) = true)
    (hz : s.cfg.zeroLenSend = .oneZlp ∨ clampLength dataLen requested ≠ 0#16)
    (hfit : a % s.cfg.align = 0 ∨ a + min (min dataLen.toNat requested.toNat) 64 ≤ addrLimit s.cfg) :
    ∃ t, send a dataLen requested s = .next t ∧
      t.eng = { s.eng with
        phase := phaseForRemaining (clampLength dataLen requested)
        xfer := ⟨a, clampLength dataLen requested, zlpFlag (clampLength dataLen requested)⟩ } ∧
      InPacketArmed s t a (clampLength dataLen requested) ∧
      t.calls = s.calls ∧ t.sendLen = clampLength dataLen requested ∧ SameOutside s t := by
  have he : send a dataLen requested s = armInNext (loadSend a (clampLength dataLen requested) s) := by
    rcases hz with hz | hz <;> simp [send, hz]
  rw [he]
  refine armInNext_armed (s := loadSend a (clampLength dataLen requested) s) hw hc hst ?_
  simp only [loadSend, State.setSendLen_eng, State.setXfer_eng, State.setSendLen_cfg, State.setXfer_cfg,
    armedLength, maxPacket, clampLength_toNat]
  exact hfit

theorem clampLength_short {bs : List Byte} {requested : HWord} (hl : bs.length ≤ 8) :
    clampLength (BitVec.ofNat 16 bs.length) requested = BitVec.ofNat 16 (min bs.length requested.toNat) := by
  have hr := requested.isLt
  apply BitVec.eq_of_toNat_eq
  rw [clampLength_toNat, BitVec.toNat_ofNat, BitVec.toNat_ofNat, Nat.mod_eq_of_lt (by omega), Nat.mod_eq_of_lt (by omega)]

/-- The whole effect of `reply` on a state whose request has just been latched (42_standard_requests.md rule R168). -/
theorem reply_sent {bs : List Byte} {s : State} (hw : Memory.wf s.mem = true) (hc : configOk s.cfg = true)
    (hz : s.cfg.zeroLenSend = .oneZlp) (hl : 1 ≤ bs.length) (hl' : bs.length ≤ 8) (requested : HWord) :
    ∃ t, reply bs requested s = .next t ∧
      t.eng = { s.eng with
        phase := .lastInData
        xfer := ⟨s.cfg.replyBase, BitVec.ofNat 16 (min bs.length requested.toNat), false⟩ } ∧
      Memory.readBytes t.mem s.cfg.replyBase bs.length = bs ∧
      SameOutsideRange s.mem t.mem s.cfg.replyBase bs.length ∧
      t.commands = s.commands ++
        [if requested = 0#16 then .armIn none 0 else .armIn (some s.cfg.replyBase) (min bs.length requested.toNat)] ∧
      t.port = { s.port with
        inArmed := some (if requested = 0#16 then ⟨none, 0⟩ else ⟨some s.cfg.replyBase, min bs.length requested.toNat⟩) } ∧
      t.calls = s.calls ∧ t.sendLen = BitVec.ofNat 16 (min bs.length requested.toNat) ∧ SameOutside s t := by
  have hfit : s.cfg.replyBase + bs.length ≤ addrLimit s.cfg := by have := (configOk_reply hc).2; omega
  have hn : (BitVec.ofNat 16 (min bs.length requested.toNat)).toNat = min bs.length requested.toNat :=
    Nat.mod_eq_of_lt (by omega)
  have hph : inPhase (BitVec.ofNat 16 (min bs.length requested.toNat)) = .lastInData := by
    unfold inPhase; rw [hn]; exact if_pos (by simp only [maxPacket]; omega)
  have hzl : zlpFlag (BitVec.ofNat 16 (min bs.length requested.toNat)) = false := by
    unfold zlpFlag; rw [hn]; exact decide_eq_false (by simp only [maxPacket]; omega)
  have harm : armedLength (BitVec.ofNat 16 (min bs.length requested.toNat)) = min bs.length requested.toNat := by
    unfold armedLength; rw [hn]; simp only [maxPacket]; omega
  have he : reply bs requested s = armInNext (loadSend s.cfg.replyBase (BitVec.ofNat 16 (min bs.length requested.toNat))
      (s.setMem (Memory.writeBytes s.mem s.cfg.replyBase bs))) := by
    simp [reply, memWrite_of_fits hfit, send, hz, clampLength_short hl']
  rw [he]
  have hback := Memory.readBytes_writeBytes hw s.cfg.replyBase bs
  have hout : SameOutsideRange s.mem (Memory.writeBytes s.mem s.cfg.replyBase bs) s.cfg.replyBase bs.length :=
    fun b hb => Memory.read_writeBytes_outside _ _ _ hb
  by_cases hr : requested = 0#16
  · subst hr
    refine ⟨_, armInNext_empty (by simp [loadSend]), ?_, hback, hout, by simp [loadSend], ?_, by simp [loadSend],
      by simp [loadSend], ⟨rfl, rfl, rfl, rfl, rfl, rfl⟩⟩
    · simp [loadSend, zlpFlag]
    · simp [loadSend, Transport.apply]
  · have hr0 : requested.toNat ≠ 0 := fun h => hr (BitVec.eq_of_toNat_eq (by simpa using h))
    have hne : BitVec.ofNat 16 (min bs.length requested.toNat) ≠ 0#16 := by
      intro h
      have h' := congrArg BitVec.toNat h
      rw [hn] at h'
      simp only [BitVec.toNat_ofNat, Nat.zero_mod] at h'
      omega
    rw [armInNext_some (by simpa [loadSend] using hne), armIn_aligned (by simpa [loadSend] using (configOk_bases hc).2.1)]
    refine ⟨_, rfl, ?_, hback, hout, ?_, ?_, by simp [loadSend], by simp [loadSend], ⟨rfl, rfl, rfl, rfl, rfl, rfl⟩⟩
    · simp [loadSend, hzl, hph]
    · simp [loadSend, harm, hr]
    · simp [loadSend, Transport.apply, harm, hr]

end Sys2Proof.Machine
end

