-- ==== Sys2Proof/Laws/Decode.lean ====
section
/-! SUPPORT. The small laws of the encodings: byte order, records, the opcode map. -/

namespace Sys2Proof

/-! ### Byte order (00_scope.md rule R8) -/

@[simp] theorem le16_loByte_hiByte (v : HWord) : le16 (loByte v) (hiByte v) = v := by
  apply BitVec.eq_of_toNat_eq
  have := v.isLt
  simp only [le16, loByte, hiByte, BitVec.toNat_append, BitVec.extractLsb'_toNat, Nat.shiftRight_zero]
  rw [← Nat.shiftLeft_add_eq_or_of_lt (Nat.mod_lt _ (by decide)), Nat.shiftLeft_eq, Nat.shiftRight_eq_div_pow]
  omega

@[simp] theorem loByte_le16 (b0 b1 : Byte) : loByte (le16 b0 b1) = b0 := by
  apply BitVec.eq_of_toNat_eq
  have := b0.isLt
  simp only [le16, loByte, BitVec.toNat_append, BitVec.extractLsb'_toNat, Nat.shiftRight_zero]
  rw [← Nat.shiftLeft_add_eq_or_of_lt b0.isLt, Nat.shiftLeft_eq]
  omega

@[simp] theorem hiByte_le16 (b0 b1 : Byte) : hiByte (le16 b0 b1) = b1 := by
  apply BitVec.eq_of_toNat_eq
  have := b0.isLt
  have := b1.isLt
  simp only [le16, hiByte, BitVec.toNat_append, BitVec.extractLsb'_toNat]
  rw [← Nat.shiftLeft_add_eq_or_of_lt b0.isLt, Nat.shiftLeft_eq, Nat.shiftRight_eq_div_pow]
  omega

/-! ### Records (30_encoding.md rule R80) -/

@[simp] theorem Req.req_record (q : Req) : q.record.req = q := by
  simp [Req.record, Record.req]

@[simp] theorem Record.record_req (r : Record) : r.req.record = r := by
  simp [Req.record, Record.req]

@[simp] theorem Record.length_bytes (r : Record) : r.bytes.length = 8 := rfl

@[simp] theorem takeRecord_bytes (r : Record) (rest : List Byte) : takeRecord (r.bytes ++ rest) = some (r, rest) := rfl

theorem takeRecords_bytes (recs : List Record) (rest : List Byte) :
    takeRecords recs.length (recs.flatMap Record.bytes ++ rest) = some (recs, rest) := by
  induction recs with
  | nil => rfl
  | cons r recs ih =>
    simp only [List.length_cons, List.flatMap_cons, List.append_assoc, takeRecords, takeRecord_bytes, ih]

/-! ### The opcode map (rules R88, R89) -/

/-- The fourteenth key differs from every key whose low byte is not 0xC0 (rule R88). -/
theorem msOsKey_beq {vc : Byte} {x : HWord} (h : loByte x ≠ 0xC0#8) : (le16 0xC0#8 vc == x) = false := by
  rw [beq_eq_false_iff_ne]
  rintro rfl
  simp at h

theorem beq_msOsKey {vc : Byte} {x : HWord} (h : loByte x ≠ 0xC0#8) : (x == le16 0xC0#8 vc) = false := by
  rw [beq_eq_false_iff_ne]
  rintro rfl
  simp at h

/-- The fourteen keys are pairwise different, so each selects its own request (rule R89). -/
theorem classify_key (vc : Byte) (k : RequestKind) : classify vc (k.key vc) = some k := by
  cases k <;>
    simp [classify, RequestKind.all, RequestKind.key, msOsKey_beq (vc := vc), beq_msOsKey (vc := vc),
      show loByte 0x0500#16 ≠ 0xC0#8 by decide, show loByte 0x0900#16 ≠ 0xC0#8 by decide,
      show loByte 0x0880#16 ≠ 0xC0#8 by decide, show loByte 0x0080#16 ≠ 0xC0#8 by decide,
      show loByte 0x0082#16 ≠ 0xC0#8 by decide, show loByte 0x0102#16 ≠ 0xC0#8 by decide,
      show loByte 0x0302#16 ≠ 0xC0#8 by decide, show loByte 0x0680#16 ≠ 0xC0#8 by decide,
      show loByte 0x0121#16 ≠ 0xC0#8 by decide, show loByte 0x03A1#16 ≠ 0xC0#8 by decide,
      show loByte 0x0421#16 ≠ 0xC0#8 by decide, show loByte 0x05A1#16 ≠ 0xC0#8 by decide,
      show loByte 0x0621#16 ≠ 0xC0#8 by decide]

/-- A key that selects a request is that request's key. -/
theorem key_of_classify {vc : Byte} {key : HWord} {k : RequestKind} (h : classify vc key = some k) : k.key vc = key := by
  have := List.find?_some h
  simpa using this

end Sys2Proof
end

