-- ==== Sys2Proof/Laws/PerInstr.lean ====
section
/-! SUPPORT. Statements about an instruction as syntax, one lemma per constructor. `EncodedLength`: an instruction's
encoding is as long as its format says (30_encoding.md rule R80: a record is 8 bytes; log entry 7 for the events). -/

namespace Sys2Proof.Laws.EncodedLength

open Sys2Proof

/-- The bytes of an instruction: 8 for a record, a code byte and the operands for an event. -/
def bytes : Instr → Nat
  | .setAddress _ _ _ => 8
  | .setConfiguration _ _ _ => 8
  | .getConfiguration _ _ _ => 8
  | .getStatusDevice _ _ _ => 8
  | .getStatusEndpoint _ _ _ => 8
  | .clearFeatureEndpoint _ _ _ => 8
  | .setFeatureEndpoint _ _ _ => 8
  | .getDescriptor _ _ _ => 8
  | .msOsDescriptor _ _ _ => 8
  | .dfuDnload _ _ _ => 8
  | .dfuGetstatus _ _ _ => 8
  | .dfuClrstatus _ _ _ => 8
  | .dfuGetstate _ _ _ => 8
  | .dfuAbort _ _ _ => 8
  | .unknownKey _ _ _ _ => 8
  | .eventSetup recs => 2 + 8 * recs.length
  | .eventInDone _ _ => 4
  | .eventOutDone _ _ => 4
  | .eventBusReset => 1

/-- The encoding has that many bytes, whatever the vendor code. -/
def Statement (i : Instr) : Prop := ∀ vc : Byte, (encode vc i).length = bytes i

theorem setAddress (value index length : HWord) : Statement (.setAddress value index length) := fun _ => rfl

theorem setConfiguration (value index length : HWord) : Statement (.setConfiguration value index length) := fun _ => rfl

theorem getConfiguration (value index length : HWord) : Statement (.getConfiguration value index length) := fun _ => rfl

theorem getStatusDevice (value index length : HWord) : Statement (.getStatusDevice value index length) := fun _ => rfl

theorem getStatusEndpoint (value index length : HWord) : Statement (.getStatusEndpoint value index length) := fun _ => rfl

theorem clearFeatureEndpoint (value index length : HWord) : Statement (.clearFeatureEndpoint value index length) := fun _ => rfl

theorem setFeatureEndpoint (value index length : HWord) : Statement (.setFeatureEndpoint value index length) := fun _ => rfl

theorem getDescriptor (value index length : HWord) : Statement (.getDescriptor value index length) := fun _ => rfl

theorem msOsDescriptor (value index length : HWord) : Statement (.msOsDescriptor value index length) := fun _ => rfl

theorem dfuDnload (value index length : HWord) : Statement (.dfuDnload value index length) := fun _ => rfl

theorem dfuGetstatus (value index length : HWord) : Statement (.dfuGetstatus value index length) := fun _ => rfl

theorem dfuClrstatus (value index length : HWord) : Statement (.dfuClrstatus value index length) := fun _ => rfl

theorem dfuGetstate (value index length : HWord) : Statement (.dfuGetstate value index length) := fun _ => rfl

theorem dfuAbort (value index length : HWord) : Statement (.dfuAbort value index length) := fun _ => rfl

theorem unknownKey (key value index length : HWord) : Statement (.unknownKey key value index length) := fun _ => rfl

theorem eventSetup (recs : List Record) : Statement (.eventSetup recs) := by
  intro vc
  have h : (recs.flatMap Record.bytes).length = 8 * recs.length := by
    induction recs with
    | nil => rfl
    | cons r recs ih => simp only [List.flatMap_cons, List.length_append, Record.length_bytes, ih, List.length_cons]; omega
  simp only [encode, List.length_cons, h, bytes]
  omega

theorem eventInDone (ep : EpNum) (n : HWord) : Statement (.eventInDone ep n) := fun _ => rfl

theorem eventOutDone (ep : EpNum) (n : HWord) : Statement (.eventOutDone ep n) := fun _ => rfl

theorem eventBusReset : Statement .eventBusReset := fun _ => rfl

end Sys2Proof.Laws.EncodedLength
end

