-- ==== Sys2Proof/Tests/Slice0.lean ====
section
/-! SUPPORT. The model's own tests. Expected results are those of spec/95_test_vectors.md (the vector is named in each
docstring) or are assembled by hand from the encodings of spec/30_encoding.md. Then one witness for each statement that
has hypotheses. -/

namespace Sys2Proof.Tests

open Sys2Proof Sys2Proof.Machine

/-! ### Well-formedness refuses -/

/-- An instruction for an unknown key that carries a known key (R88: 0x0500 is SET_ADDRESS). -/
theorem test_wf_refuses_known_key : (Instr.unknownKey 0x0500#16 0#16 0#16 0#16).wf 0x7E#8 = false := by decide

/-- The fourteenth key is known too, and depends on the vendor code (R88). -/
theorem test_wf_refuses_vendor_key :
    (Instr.unknownKey 0x7EC0#16 0#16 0#16 0#16).wf 0x7E#8 = false ∧
    (Instr.unknownKey 0x7EC0#16 0#16 0#16 0#16).wf 0x7F#8 = true := by decide

def anyRecord : Record := ⟨0x80#8, 0x06#8, 0x00#8, 0x01#8, 0x00#8, 0x00#8, 0x12#8, 0x00#8⟩

/-- R81: no record, or four. -/
theorem test_wf_refuses_record_counts :
    (Instr.eventSetup []).wf 0x7E#8 = false ∧
    (Instr.eventSetup [anyRecord, anyRecord, anyRecord, anyRecord]).wf 0x7E#8 = false ∧
    (Instr.eventSetup [anyRecord, anyRecord, anyRecord]).wf 0x7E#8 = true := by decide

/-! ### Decoding: one word for every constructor, `W = {b7, ..., b0}` written out by R80 and R88 -/

/-- 00 05, value 5 (vector E2). -/
theorem test_decode_setAddress :
    decodeTableWord 64 0x0000000000050500 = some (.setAddress 5#16 0#16 0#16) := by decide

/-- 00 09, value 0x0102 (vector S5). -/
theorem test_decode_setConfiguration :
    decodeTableWord 64 0x0000000001020900 = some (.setConfiguration 0x0102#16 0#16 0#16) := by decide

/-- 80 08, length 1 (vector S6). -/
theorem test_decode_getConfiguration :
    decodeTableWord 64 0x0001000000000880 = some (.getConfiguration 0#16 0#16 1#16) := by decide

/-- 80 00, length 2 (vector S8). -/
theorem test_decode_getStatusDevice :
    decodeTableWord 64 0x0002000000000080 = some (.getStatusDevice 0#16 0#16 2#16) := by decide

/-- 82 00, index 0x0080, length 2 (vector S19). -/
theorem test_decode_getStatusEndpoint :
    decodeTableWord 64 0x0002008000000082 = some (.getStatusEndpoint 0#16 0x80#16 2#16) := by decide

/-- 02 01, value 1, index 1 (vector S23). -/
theorem test_decode_clearFeatureEndpoint :
    decodeTableWord 64 0x0000000100010102 = some (.clearFeatureEndpoint 1#16 1#16 0#16) := by decide

/-- 02 03, value 1 (vector S25). -/
theorem test_decode_setFeatureEndpoint :
    decodeTableWord 64 0x0000000000010302 = some (.setFeatureEndpoint 1#16 0#16 0#16) := by decide

/-- 80 06 01 03 09 04 FF 00 (vector S10). -/
theorem test_decode_getDescriptor :
    decodeTableWord 64 0x00FF040903010680 = some (.getDescriptor 0x0301#16 0x0409#16 255#16) := by decide

/-- C0 7E 34 12 04 00 28 00 (vector V4). -/
theorem test_decode_msOsDescriptor :
    decodeTableWord 64 0x0028000412347EC0 = some (.msOsDescriptor 0x1234#16 4#16 40#16) := by decide

/-- 21 01 02 00 00 00 C8 00 (Scenario C). -/
theorem test_decode_dfuDnload :
    decodeTableWord 64 0x00C8000000020121 = some (.dfuDnload 2#16 0#16 200#16) := by decide

/-- A1 03 34 12 78 56 FF FF (vector E4). -/
theorem test_decode_dfuGetstatus :
    decodeTableWord 64 0xFFFF5678123403A1 = some (.dfuGetstatus 0x1234#16 0x5678#16 0xFFFF#16) := by decide

/-- 21 04 (vector F3). -/
theorem test_decode_dfuClrstatus :
    decodeTableWord 64 0x0000000000000421 = some (.dfuClrstatus 0#16 0#16 0#16) := by decide

/-- A1 05, length 1 (vector F4). -/
theorem test_decode_dfuGetstate :
    decodeTableWord 64 0x00010000000005A1 = some (.dfuGetstate 0#16 0#16 1#16) := by decide

/-- 21 06, index 1 (vector F5b). -/
theorem test_decode_dfuAbort :
    decodeTableWord 64 0x0000000100000621 = some (.dfuAbort 0#16 1#16 0#16) := by decide

/-- 01 0B (vector S28) and C0 7F (vector V5). -/
theorem test_decode_unknownKey :
    decodeTableWord 64 0x0000000000000B01 = some (.unknownKey 0x0B01#16 0#16 0#16 0#16) ∧
    decodeTableWord 64 0x0010000400007FC0 = some (.unknownKey 0x7FC0#16 0#16 4#16 16#16) := by decide

/-- The four event codes of R84 with operands of zeros. -/
theorem test_decode_events :
    decodeTableWord 8 0 = some (.eventSetup [⟨0#8, 0#8, 0#8, 0#8, 0#8, 0#8, 0#8, 0#8⟩]) ∧
    decodeTableWord 8 1 = some (.eventInDone 0#4 0#16) ∧ decodeTableWord 8 2 = some (.eventOutDone 0#4 0#16) ∧
    decodeTableWord 8 3 = some .eventBusReset := by decide

/-- Log entry 7: code 0, two records less one, the older record first. -/
theorem test_decode_setup_event_of_two :
    decode 0x7E#8 .event ([0#8, 1#8] ++ [0x80#8, 0x06#8, 0x00#8, 0x01#8, 0x00#8, 0x00#8, 0x12#8, 0x00#8] ++
      [0x80#8, 0x00#8, 0x00#8, 0x00#8, 0x00#8, 0x00#8, 0x02#8, 0x00#8] ++ [0xAA#8]) =
    .ok (.eventSetup [anyRecord, ⟨0x80#8, 0x00#8, 0x00#8, 0x00#8, 0x00#8, 0x00#8, 0x02#8, 0x00#8⟩], [0xAA#8]) := by rfl

/-- What is no instruction is rejected by name. -/
theorem test_decode_rejects :
    decode 0x7E#8 .event [4#8] = .error .reservedEventCode ∧
    decode 0x7E#8 .event [1#8, 16#8, 0#8, 0#8] = .error .reservedEndpoint ∧
    decode 0x7E#8 .event [0#8, 3#8] = .error .badRecordCount ∧
    decode 0x7E#8 .setup [0x80#8, 0x06#8] = .error .truncated := ⟨rfl, rfl, rfl, rfl⟩

/-! ### One step: vectors of spec/95_test_vectors.md -/

/-- Bytes of the vectors' memory that these tests read (95 section 0): the device descriptor and string 1. -/
def vectorMem : Memory :=
  Memory.writeBytes
    (Memory.writeBytes [] 0x1000
      [0x12#8, 0x01#8, 0x00#8, 0x02#8, 0x00#8, 0x00#8, 0x00#8, 0x40#8, 0x09#8, 0x12#8, 0x70#8, 0x00#8, 0x00#8,
       0x01#8, 0x01#8, 0x02#8, 0x00#8, 0x01#8])
    0x1041 [0x0A#8, 0x03#8, 0x54#8, 0x00#8, 0x6F#8, 0x00#8, 0x6D#8, 0x00#8, 0x75#8, 0x00#8]

/-- The reset state with the vectors' memory. -/
def start : State := { State.reset with mem := vectorMem }

/-- `start` in the middle of a transfer. -/
def during (p : Phase) (x : Xfer) (q : Req) : State :=
  { start with eng := { start.eng with phase := p, xfer := x, req := q } }

/-- The next state, if there is one. -/
def nextOf : Result → Option State
  | .next s => some s
  | .fault _ => none
  | .refused _ => none

/-- The commands a step added to `start`, and the phase after it. -/
def shown (r : Result) : Option (List Command × Phase) :=
  (nextOf r).map (fun t => (t.commands.drop 1, t.eng.phase))

/-- S1 of P1: `SetAddress(5), ArmIn(⊥, 0)`. -/
theorem test_setAddress :
    shown (exec (.setAddress 5#16 0#16 0#16) start) = some ([.setAddress 5#7, .armIn none 0], .waitStatusIn) ∧
    (nextOf (exec (.setAddress 0x0085#16 0#16 0#16) start)).map (fun t => t.eng.devAddr) = some 5#7 := by decide

/-- S5: the low byte is stored. -/
theorem test_setConfiguration :
    shown (exec (.setConfiguration 0x0102#16 0#16 0#16) start) = some ([.armIn none 0], .waitStatusIn) ∧
    (nextOf (exec (.setConfiguration 0x0102#16 0#16 0#16) start)).map (fun t => t.eng.config) = some 2#8 := by decide

/-- S6 and S7. -/
theorem test_getConfiguration :
    shown (exec (.getConfiguration 0#16 0#16 1#16) start) = some ([.armIn (some 0x20000040) 1], .lastInData) ∧
    (nextOf (exec (.getConfiguration 0#16 0#16 0#16) { start with eng := { start.eng with config := 1#8 } })).map
      (fun t => (t.commands.drop 1, Memory.read t.mem 0x20000040)) = some ([.armIn none 0], 1#8) := by decide

/-- S8a. -/
theorem test_getStatusDevice :
    shown (exec (.getStatusDevice 0#16 0#16 1#16) start) = some ([.armIn (some 0x20000040) 1], .lastInData) := by decide

/-- S17 (`in_halted = 1`: reply 01 00) and S19 (`index = 0x0080`: error). -/
theorem test_getStatusEndpoint :
    (nextOf (exec (.getStatusEndpoint 0#16 0#16 2#16)
      { start with answers := { Answers.reset with inHalted := true } })).map
      (fun t => (t.commands.drop 1, Memory.readBytes t.mem 0x20000040 2)) =
        some ([.armIn (some 0x20000040) 2], [1#8, 0#8]) ∧
    shown (exec (.getStatusEndpoint 0#16 0x0080#16 2#16) start) =
      some ([.stallIn, .stallOut, .armSetup], .waitSetup) := by decide

/-- S20 and S21. -/
theorem test_clearFeatureEndpoint :
    shown (exec (.clearFeatureEndpoint 0#16 0#16 0#16) start) = some ([.armIn none 0], .waitStatusIn) ∧
    shown (exec (.clearFeatureEndpoint 0#16 0x0081#16 0#16) start) =
      some ([.stallIn, .stallOut, .armSetup], .waitSetup) := by decide

/-- S24 and S25. -/
theorem test_setFeatureEndpoint :
    shown (exec (.setFeatureEndpoint 0#16 0#16 0#16) start) = some ([.armIn none 0], .waitStatusIn) ∧
    shown (exec (.setFeatureEndpoint 1#16 0#16 0#16) start) =
      some ([.stallIn, .stallOut, .armSetup], .waitSetup) := by decide

/-- Scenario A, and S14 (no such selector). -/
theorem test_getDescriptor :
    shown (exec (.getDescriptor 0x0100#16 0#16 18#16) start) = some ([.armIn (some 0x1000) 18], .lastInData) ∧
    shown (exec (.getDescriptor 0x0600#16 0#16 10#16) start) =
      some ([.stallIn, .stallOut, .armSetup], .waitSetup) := by decide

/-- S10: an unaligned string is staged; its length is its byte 0; the language is ignored. -/
theorem test_getDescriptor_staged :
    (nextOf (exec (.getDescriptor 0x0301#16 0x0409#16 255#16) start)).map
      (fun t => (t.commands.drop 1, t.eng.xfer, Memory.readBytes t.mem 0x20000000 10)) =
    some ([.armIn (some 0x20000000) 10], ⟨0x1041, 10#16, false⟩,
      [0x0A#8, 0x03#8, 0x54#8, 0x00#8, 0x6F#8, 0x00#8, 0x6D#8, 0x00#8, 0x75#8, 0x00#8]) := by decide

/-- V1 and V3. -/
theorem test_msOsDescriptor :
    shown (exec (.msOsDescriptor 0#16 4#16 16#16) start) = some ([.armIn (some 0x1200) 16], .lastInData) ∧
    shown (exec (.msOsDescriptor 0#16 5#16 16#16) start) =
      some ([.stallIn, .stallOut, .armSetup], .waitSetup) := by decide

/-- The first step of Scenario C, and F1a (Scenario B): the answer is no. -/
theorem test_dfuDnload :
    shown (exec (.dfuDnload 2#16 0#16 200#16) start) = some ([.armOut (some 0x20000100) 64], .outData) ∧
    (nextOf (exec (.dfuDnload 0#16 0#16 0#16) { start with answers := { Answers.reset with download := false } })).map
      (fun t => (t.commands.drop 1, t.calls)) =
    some ([.stallIn, .stallOut, .armSetup], [.download 0#16 0#16 0#16 0#16 none []]) := by decide

/-- F2b: all six bytes are written, four are sent. -/
theorem test_dfuGetstatus :
    (nextOf (exec (.dfuGetstatus 0#16 0#16 4#16)
      { start with answers := { Answers.reset with getStatus := some ⟨1#8, 2#8, 3#8, 4#8, 5#8, 6#8⟩ } })).map
      (fun t => (t.commands.drop 1, Memory.readBytes t.mem 0x20000040 6, t.calls)) =
    some ([.armIn (some 0x20000040) 4], [1#8, 2#8, 3#8, 4#8, 5#8, 6#8], [.getStatus]) := by decide

/-- F3 and F3a. -/
theorem test_dfuClrstatus :
    shown (exec (.dfuClrstatus 0#16 0#16 0#16) start) = some ([.armIn none 0], .waitStatusIn) ∧
    shown (exec (.dfuClrstatus 0#16 0#16 0#16) { start with answers := { Answers.reset with clearStatus := false } }) =
      some ([.stallIn, .stallOut, .armSetup], .waitSetup) := by decide

/-- F4. -/
theorem test_dfuGetstate :
    (nextOf (exec (.dfuGetstate 0#16 0#16 1#16) { start with answers := { Answers.reset with getState := 2#8 } })).map
      (fun t => (t.commands.drop 1, Memory.read t.mem 0x20000040, t.calls)) =
    some ([.armIn (some 0x20000040) 1], 2#8, [.getState]) := by decide

/-- F5b: a bad index makes no call. -/
theorem test_dfuAbort :
    (nextOf (exec (.dfuAbort 0#16 1#16 0#16) start)).map (fun t => (t.commands.drop 1, t.calls)) =
    some ([.stallIn, .stallOut, .armSetup], []) := by decide

/-- P3 event 3: the unknown key 0x0B01; the operands are latched. -/
theorem test_unknownKey :
    (nextOf (exec (.unknownKey 0x0B01#16 1#16 2#16 3#16) start)).map (fun t => (t.commands.drop 1, t.eng.req)) =
    some ([.stallIn, .stallOut, .armSetup], ⟨0x0B01#16, 1#16, 2#16, 3#16⟩) := by decide

/-- P3 event 7: of two records only the newer one runs. -/
theorem test_eventSetup :
    shown (exec (.eventSetup [anyRecord, ⟨0x80#8, 0x00#8, 0x00#8, 0x00#8, 0x00#8, 0x00#8, 0x02#8, 0x00#8⟩]) start) =
    some ([.armIn (some 0x20000040) 2], .lastInData) := by decide

/-- P1 events 4 and 5: the deferred zero-length packet, then the status stage. -/
theorem test_eventInDone :
    shown (exec (.eventInDone 0#4 64#16) (during .inData ⟨0x1100, 64#16, true⟩ ⟨0x0680#16, 0x0200#16, 0#16, 255#16⟩)) =
      some ([.armIn none 0], .lastInData) ∧
    shown (exec (.eventInDone 0#4 0#16)
      (during .lastInData ⟨0x1140, 0#16, false⟩ ⟨0x0680#16, 0x0200#16, 0#16, 255#16⟩)) =
      some ([.armOut none 0], .waitStatusOut) := by decide

/-- P2 event 5: the last packet of a block; X5: a count above the armed length. -/
theorem test_eventOutDone :
    (nextOf (exec (.eventOutDone 0#4 8#16)
      (during .outData ⟨0x200001C0, 8#16, false⟩ ⟨0x0121#16, 2#16, 0#16, 200#16⟩))).map
      (fun t => (t.commands.drop 1, t.eng.xfer, t.calls)) =
    some ([.armIn none 0], ⟨0x200001C8, 0#16, false⟩,
      [.download 2#16 200#16 192#16 8#16 (some 0x200001C0) [0#8, 0#8, 0#8, 0#8, 0#8, 0#8, 0#8, 0#8]]) ∧
    nextOf (exec (.eventOutDone 0#4 9#16)
      (during .outData ⟨0x200001C0, 8#16, false⟩ ⟨0x0121#16, 2#16, 0#16, 200#16⟩)) = none := by decide

/-- 95 section 2.8: a bus reset in the middle of a transfer. -/
theorem test_eventBusReset :
    (nextOf (exec .eventBusReset { start with
      eng := ⟨.inData, ⟨0x1340, 66#16, false⟩, ⟨0x0680#16, 0x2100#16, 0#16, 255#16⟩, 5#7, 1#8, false⟩ })).map
      (fun t => (t.commands.drop 1, t.eng)) = some ([.armSetup], Engine.reset) := by decide

/-- X1: a completion of endpoint 1 takes the fatal trap and emits nothing. -/
theorem test_fatal_trap :
    (nextOf (exec (.eventInDone 1#4 0#16) (during .waitStatusIn ⟨0, 0#16, false⟩ ⟨0x0900#16, 1#16, 0#16, 0#16⟩))).map
      (fun t => (t.commands.drop 1, t.eng.phase, t.eng.fatal)) = some ([], .waitStatusIn, true) := by decide

/-- The word of a table row runs as the first instruction after reset (P1 event 1, and the event code 3). -/
theorem test_withFetchWord :
    shown (step (State.reset.withFetchWord 64 0x0000000000050500)) =
      some ([.setAddress 5#7, .armIn none 0], .waitStatusIn) ∧
    shown (step (State.reset.withFetchWord 8 3)) = some ([.armSetup], .waitSetup) := by decide

/-- Memory stays in canonical form: writing what an unlisted address reads as removes the entry. -/
theorem test_memory_canonical :
    Memory.write (Memory.write [] 5 1#8) 5 0#8 = [] ∧ Memory.wf vectorMem = true ∧
    Memory.wf [(5, 0#8)] = false ∧ Memory.wf [(5, 1#8), (4, 1#8)] = false := by decide

/-- The example configuration is well laid out; an overlap is not. -/
theorem test_configuration :
    configOk Config.example95 = true ∧ configOk { Config.example95 with replyBase := 0x20000020 } = false := by decide

/-! ### Witnesses: for each statement with hypotheses, states and operands that meet them, clause by clause -/

/-- In the middle of an IN data stage with a full packet armed, as R39 describes it. -/
def midIn : State :=
  { during .inData ⟨0x1340, 66#16, false⟩ ⟨0x0680#16, 0x2100#16, 0#16, 255#16⟩ with
    commands := [.armIn (some 0x1340) 64] }

/-- In the middle of a DNLOAD of 200 bytes, 64 of them received. -/
def midOut : State :=
  { during .outData ⟨0x20000140, 136#16, false⟩ ⟨0x0121#16, 2#16, 0#16, 200#16⟩ with
    commands := [.armOut (some 0x20000140) 64] }

/-- `s` about to deliver an event. -/
def delivering (e : Event) (s : State) : State := { s with pending := [e], agenda := [.deliver 0 Answers.reset] }

def withCfg (c : Config) : State := { start with cfg := c }

theorem test_witness_decode_of_encode :
    (Instr.unknownKey 0x0B01#16 1#16 2#16 3#16).wf 0x7E#8 = true ∧
    (Instr.eventSetup [anyRecord]).wf 0x7E#8 = true ∧
    (Instr.eventSetup [anyRecord, anyRecord, anyRecord]).wf 0x7E#8 = true ∧
    (Instr.eventOutDone 15#4 0xFFFF#16).wf 0x7E#8 = true := by decide

theorem test_witness_step_runs :
    (configOk start.cfg = true ∧ { start with eng := { start.eng with fatal := true } }.eng.fatal = true) ∧
    configOk (delivering .busReset start).cfg = true ∧ (delivering .busReset start).eng.fatal = false ∧
    (delivering .busReset start).agenda = .deliver 0 Answers.reset :: [] ∧
    (delivering .busReset start).pending[0]? = some .busReset := by decide

theorem test_witness_setup_event_records :
    [anyRecord, anyRecord].length ≤ 2 ∧ 3 ≤ [anyRecord, anyRecord, anyRecord].length := by decide

/-- One configuration for each clause of `LayoutBroken`: a base off by two, a region past the top of the space, a region at
address 0, and `REPLY` beginning at the last byte of `SCRATCH`. -/
theorem test_witness_bad_configurations :
    LayoutBroken { Config.example95 with scratchBase := 0x20000002 } ∧
    LayoutBroken { Config.example95 with replyBase := 0x20000042 } ∧
    LayoutBroken { Config.example95 with rxbufBase := 0x20000102 } ∧
    LayoutBroken { Config.example95 with rxbufBase := 0xFFFFFFFC, rxBufSize := 5 } ∧
    LayoutBroken { Config.example95 with scratchBase := 0 } ∧
    LayoutBroken { Config.example95 with replyBase := 0x2000003C } := by
  refine ⟨.inl (by decide), .inr (.inl (by decide)), .inr (.inr (.inl (by decide))),
    .inr (.inr (.inr (.inl ⟨(0xFFFFFFFC, 5), by decide, .inr (.inl (by decide))⟩))),
    .inr (.inr (.inr (.inl ⟨(0, 64), by decide, .inr (.inr ⟨by decide, by decide⟩)⟩))),
    .inr (.inr (.inr (.inr ⟨0, 1, 0x2000003F, (0x20000000, 64), (0x2000003C, 8), by decide, rfl, rfl,
      ⟨by decide, by decide⟩, ⟨by decide, by decide⟩⟩)))⟩

/-- An empty region may stand at address 0, or inside another; the space may be filled to its last byte (log entry 3). -/
theorem test_empty_regions :
    configOk { Config.example95 with msOsData := 0, msOsLength := 0#16 } = true ∧
    configOk { Config.example95 with msOsData := 0x20000010, msOsLength := 0#16 } = true ∧
    configOk { Config.example95 with rxbufBase := 0xFFFFFC00 } = true ∧
    configOk { Config.example95 with rxbufBase := 0xFFFFFC04 } = false := by decide

theorem test_witness_waits : configOk start.cfg = true ∧ start.eng.fatal = false ∧ start.agenda = [] := by decide

/-- The invariant holds in the middle of an IN data stage, and a step is taken from there. -/
theorem test_witness_invariant_in :
    EngineInv (delivering (.inDone 0#4 64#16) midIn) ∧ ∃ t, step (delivering (.inDone 0#4 64#16) midIn) = .next t := by
  refine ⟨⟨by decide, by decide, fun _ => by decide, fun h => ?_, fun h => ?_, fun _ => ⟨some 0x1340, by decide⟩,
    fun h => ?_, fun h => ?_, fun h => ?_, by decide, fun h => ?_⟩, _, rfl⟩ <;> exact absurd h (by decide)

/-- And in the middle of a DNLOAD. -/
theorem test_witness_invariant_out :
    EngineInv (delivering (.outDone 0#4 64#16) midOut) ∧
      ∃ t, step (delivering (.outDone 0#4 64#16) midOut) = .next t := by
  refine ⟨⟨by decide, by decide, fun h => ?_, fun h => ?_, fun _ => by decide, fun h => ?_,
    fun _ => by decide, fun h => ?_, fun h => ?_, by decide, fun _ => by decide⟩, _, rfl⟩ <;> exact absurd h (by decide)

theorem test_witness_nonzero_endpoint : (1#4 : EpNum) ≠ 0#4 ∧ (15#4 : EpNum) ≠ 0#4 := by decide

theorem test_witness_status_phases :
    (during .waitStatusIn ⟨0, 0#16, false⟩ ⟨0x0900#16, 1#16, 0#16, 0#16⟩).eng.phase = .waitStatusIn ∧
    (during .waitStatusOut ⟨0, 0#16, false⟩ ⟨0x0880#16, 0#16, 0#16, 1#16⟩).eng.phase = .waitStatusOut := by decide

theorem test_witness_wrong_phases :
    (midOut.eng.phase ≠ .inData ∧ midOut.eng.phase ≠ .lastInData ∧ midOut.eng.phase ≠ .waitStatusIn) ∧
    (midIn.eng.phase ≠ .outData ∧ midIn.eng.phase ≠ .waitStatusOut) := by decide

/-- One more than the armed length, in both directions. -/
theorem test_witness_count_above :
    (min midIn.eng.xfer.remaining.toNat 64 < (65#16 : HWord).toNat ∧ midIn.eng.phase = .inData) ∧
    (min midOut.eng.xfer.remaining.toNat 64 < (65#16 : HWord).toNat ∧ midOut.eng.phase = .outData) := by decide

/-- The pointer one packet below the top of the space. -/
theorem test_witness_pointer_out_of_space :
    ((64#16 : HWord).toNat ≤ min (during .inData ⟨0xFFFFFFC0, 66#16, false⟩ ⟨0#16, 0#16, 0#16, 0#16⟩).eng.xfer.remaining.toNat 64 ∧
      2 ^ start.cfg.addrW ≤ (during .inData ⟨0xFFFFFFC0, 66#16, false⟩ ⟨0#16, 0#16, 0#16, 0#16⟩).eng.xfer.buffer + (64#16 : HWord).toNat) ∧
    (during .outData ⟨0xFFFFFFC0, 66#16, false⟩ ⟨0#16, 0#16, 0#16, 0#16⟩).eng.phase = .outData ∧
    (during .outData ⟨0xFFFFFFC0, 66#16, false⟩ ⟨0#16, 0#16, 0#16, 0#16⟩).answers.download = true := by decide

/-- An aligned next packet, (with `n = 63`) an unaligned one, and one that would be staged across the top of the space. -/
theorem test_witness_in_completion :
    Memory.wf midIn.mem = true ∧ configOk midIn.cfg = true ∧ midIn.cfg.stageLongUnaligned = true ∧
    midIn.eng.phase = .inData ∧ (64#16 : HWord).toNat ≤ min midIn.eng.xfer.remaining.toNat 64 ∧
    (2#16 : HWord) = midIn.eng.xfer.remaining - 64#16 ∧ (2#16 : HWord) ≠ 0#16 ∧
    midIn.eng.xfer.buffer + (64#16 : HWord).toNat + min (2#16 : HWord).toNat 64 ≤ 2 ^ midIn.cfg.addrW ∧
    (3#16 : HWord) = midIn.eng.xfer.remaining - 63#16 ∧ (midIn.eng.xfer.buffer + 63) % midIn.cfg.align ≠ 0 ∧
    0xFFFFFFFD = 0xFFFFFFBD + (64#16 : HWord).toNat ∧ 0xFFFFFFFD < 2 ^ midIn.cfg.addrW ∧ 0xFFFFFFFD % midIn.cfg.align ≠ 0 ∧
    2 ^ midIn.cfg.addrW < 0xFFFFFFFD + min (66#16 : HWord).toNat 64 := by decide

/-- The last two bytes, without and with the deferred zero-length packet. -/
theorem test_witness_last_in_completion :
    ((during .lastInData ⟨0x1380, 2#16, false⟩ ⟨0#16, 0#16, 0#16, 0#16⟩).eng.phase = .lastInData ∧
      (2#16 : HWord).toNat ≤ 64 ∧ 0x1380 + (2#16 : HWord).toNat < 2 ^ start.cfg.addrW) ∧
    ((during .inData ⟨0x1100, 64#16, true⟩ ⟨0#16, 0#16, 0#16, 0#16⟩).eng.xfer.zlp = true ∧
      (64#16 : HWord) = (during .inData ⟨0x1100, 64#16, true⟩ ⟨0#16, 0#16, 0#16, 0#16⟩).eng.xfer.remaining) := by decide

/-- A DNLOAD packet that leaves bytes, and the last packet. -/
theorem test_witness_dnload_packet :
    (midOut.eng.phase = .outData ∧ midOut.eng.req.key = 0x0121#16 ∧ midOut.answers.download = true ∧
      (64#16 : HWord).toNat ≤ min midOut.eng.xfer.remaining.toNat 64 ∧
      midOut.eng.xfer.buffer + min midOut.eng.xfer.remaining.toNat 64 ≤ 2 ^ midOut.cfg.addrW ∧
      midOut.eng.xfer.remaining ≠ 64#16 ∧ midOut.cfg.rxbufBase ≤ midOut.eng.xfer.buffer + (64#16 : HWord).toNat ∧
      midOut.eng.xfer.buffer + (64#16 : HWord).toNat + min (midOut.eng.xfer.remaining - 64#16).toNat 64 ≤
        midOut.cfg.rxbufBase + midOut.cfg.rxBufSize) ∧
    (during .outData ⟨0x200001C0, 8#16, false⟩ ⟨0x0121#16, 2#16, 0#16, 200#16⟩).eng.xfer.remaining = 8#16 := by decide

/-- The last byte of `RXBUF` is received and one byte is left: the next packet has no room. -/
theorem test_witness_dnload_overrun :
    let s := during .outData ⟨0x200004C0, 65#16, false⟩ ⟨0x0121#16, 2#16, 0#16, 1025#16⟩
    s.eng.phase = .outData ∧ s.eng.req.key = 0x0121#16 ∧ s.answers.download = true ∧ s.eng.xfer.remaining ≠ 64#16 ∧
      s.cfg.rxbufBase + s.cfg.rxBufSize <
        s.eng.xfer.buffer + (64#16 : HWord).toNat + min (s.eng.xfer.remaining - 64#16).toNat 64 := by decide

theorem test_witness_dnload_rejected :
    let s := { midOut with answers := { Answers.reset with download := false } }
    s.eng.phase = .outData ∧ s.eng.req.key = 0x0121#16 ∧ s.answers.download = false ∧
      (64#16 : HWord).toNat ≤ min s.eng.xfer.remaining.toNat 64 ∧
      s.eng.xfer.buffer + min s.eng.xfer.remaining.toNat 64 ≤ 2 ^ s.cfg.addrW := by decide

/-- A completion of each direction that answers a next state, `r' = 0`, `0 < r' < 64` and (64 of 130) `64 <= r'`. -/
theorem test_witness_completion_table :
    (∃ t, exec (.eventInDone 0#4 64#16) midIn = .next t) ∧ (66#16 - 64#16 : HWord).toNat < 64 ∧
    (∃ t, exec (.eventInDone 0#4 64#16) (during .inData ⟨0x1300, 130#16, false⟩ ⟨0#16, 0#16, 0#16, 0#16⟩) = .next t) ∧
    64 ≤ (130#16 - 64#16 : HWord).toNat ∧
    (∃ t, exec (.eventInDone 0#4 2#16) (during .lastInData ⟨0x1380, 2#16, false⟩ ⟨0#16, 0#16, 0#16, 0#16⟩) = .next t) ∧
    (∃ t, exec (.eventOutDone 0#4 64#16) midOut = .next t) ∧
    (∃ t, exec (.eventOutDone 0#4 64#16) { midOut with answers := { Answers.reset with download := false } } = .next t) ∧
    (∃ t, exec (.eventOutDone 0#4 0#16) midIn = .next t) ∧ (∃ t, exec .eventBusReset midIn = .next t) :=
  ⟨⟨_, rfl⟩, by decide, ⟨_, rfl⟩, by decide, ⟨_, rfl⟩, ⟨_, rfl⟩, ⟨_, rfl⟩, ⟨_, rfl⟩, ⟨_, rfl⟩⟩

theorem test_witness_decided : start.cfg.decided ∧ ((1#16 : HWord) ≠ 0#16 ∨ (0#16 : HWord) ≠ 0#16) :=
  ⟨⟨rfl, rfl, rfl, rfl, rfl⟩, by decide⟩

/-- Index 0x0081 fails under both masks, 0x0080 under the default alone. -/
theorem test_witness_other_readings :
    (withCfg { Config.example95 with featureHaltEffect := .stallOnSet }).cfg.featureHaltEffect = .stallOnSet ∧
    (withCfg { Config.example95 with featureHaltEffect := .stallOnSet }).cfg.featureHaltEffect ≠ .alwaysError ∧
    (withCfg { Config.example95 with featureHaltEffect := .alwaysError }).cfg.featureHaltEffect = .alwaysError ∧
    (withCfg { Config.example95 with epIndexMask := 0xFF7F#16 }).cfg.epIndexMask = 0xFF7F#16 ∧
    (0x0080#16 &&& 0xFF7F#16 : HWord) = 0#16 ∧ (0x0081#16 &&& 0xFF7F#16 : HWord) ≠ 0#16 ∧
    (0x0080#16 &&& 0xFFFF#16 : HWord) ≠ 0#16 ∧ Memory.wf start.mem = true ∧
    configOk { Config.example95 with epIndexMask := 0xFF7F#16 } = true := by decide

/-- 93 U10: with the mask 0xFF7F, GET_STATUS of EP0 IN replies the halt bit and SET_FEATURE acknowledges. -/
theorem test_mask_accepts_ep0_in :
    let s := withCfg { Config.example95 with epIndexMask := 0xFF7F#16 }
    shown (exec (.getStatusEndpoint 0#16 0x0080#16 2#16) s) = some ([.armIn (some 0x20000040) 2], .lastInData) ∧
    shown (exec (.setFeatureEndpoint 0#16 0x0080#16 0#16) s) = some ([.armIn none 0], .waitStatusIn) := by decide

/-- A long unaligned transfer in the reading of 93 U5 that stages none of it. -/
def midUnstaged : State :=
  { during .inData ⟨0x1341, 66#16, false⟩ ⟨0x0680#16, 0x2100#16, 0#16, 100#16⟩ with
    cfg := { Config.example95 with stageLongUnaligned := false }
    sendLen := 100#16 }

/-- An empty reply; 130 bytes cut to 65, to 64 and to one; a later packet of a long transfer and of a short one. -/
theorem test_witness_send_readings :
    ((withCfg { Config.example95 with zeroLenSend := .straightToStatus }).cfg.zeroLenSend = .straightToStatus ∧
      (0#16 : HWord).toNat = min (18#16 : HWord).toNat (0#16 : HWord).toNat) ∧
    (midUnstaged.cfg.stageLongUnaligned = false ∧ 64 < (65#16 : HWord).toNat ∧
      (65#16 : HWord).toNat = min (130#16 : HWord).toNat (65#16 : HWord).toNat ∧
      (64#16 : HWord).toNat = min (130#16 : HWord).toNat (64#16 : HWord).toNat ∧
      (1#16 : HWord).toNat = min (130#16 : HWord).toNat (1#16 : HWord).toNat ∧
      Memory.wf midUnstaged.mem = true ∧ configOk midUnstaged.cfg = true ∧ 0x1341 + 64 ≤ 2 ^ midUnstaged.cfg.addrW) ∧
    (midUnstaged.eng.phase = .inData ∧ (64#16 : HWord).toNat ≤ min midUnstaged.eng.xfer.remaining.toNat 64 ∧
      (2#16 : HWord) = midUnstaged.eng.xfer.remaining - 64#16 ∧ (2#16 : HWord) ≠ 0#16 ∧
      0x1381 = midUnstaged.eng.xfer.buffer + (64#16 : HWord).toNat ∧ 0x1381 + 2 ≤ 2 ^ midUnstaged.cfg.addrW ∧
      64 < midUnstaged.sendLen.toNat ∧ { midUnstaged with sendLen := 64#16 }.sendLen.toNat ≤ 64) := by decide

theorem test_witness_index_and_answers :
    (1#16 : HWord) ≠ 0#16 ∧ start.answers.getStatus = some ⟨0#8, 0#8, 0#8, 0#8, 0#8, 0#8⟩ ∧
    { start with answers := { Answers.reset with getStatus := none } }.answers.getStatus = none := by decide

/-- A block of 64 bytes and a receive buffer of 64, then of 63. -/
theorem test_witness_dnload_room :
    (64#16 : HWord) ≠ 0#16 ∧
    min (64#16 : HWord).toNat 64 ≤ (withCfg { Config.example95 with rxBufSize := 64 }).cfg.rxBufSize ∧
    (withCfg { Config.example95 with rxBufSize := 63 }).cfg.rxBufSize < min (64#16 : HWord).toNat 64 := by decide

theorem test_witness_reply :
    Memory.wf start.mem = true ∧ configOk start.cfg = true ∧ start.cfg.zeroLenSend = .oneZlp := by decide

/-- The fifth entry is the first with selector 0x0301, a string of 10 bytes; no entry has selector 0x0600. -/
theorem test_witness_descriptor :
    (∀ e ∈ start.cfg.descTable, e.selector ≠ 0x0600#16) ∧
    start.cfg.descTable = start.cfg.descTable.take 4 ++ ⟨0x0301#16, 0x1041, 0#16⟩ :: start.cfg.descTable.drop 5 ∧
    (∀ d ∈ start.cfg.descTable.take 4, d.selector ≠ 0x0301#16) ∧
    10 = (if (0x0301#16 : HWord).toNat / 256 = 3 then (Memory.read start.mem 0x1041).toNat else 0) ∧
    0x1041 + min (min 10 255) 64 ≤ 2 ^ start.cfg.addrW := by decide

/-- A string of 10 bytes three bytes below the top of the space. -/
theorem test_witness_descriptor_outside :
    let s := { start with
      cfg := { Config.example95 with descTable := [⟨0x0301#16, 0xFFFFFFFD, 0#16⟩] }
      mem := Memory.write [] 0xFFFFFFFD 10#8 }
    Memory.wf s.mem = true ∧ configOk s.cfg = true ∧ (Memory.read s.mem 0xFFFFFFFD).toNat = 10 ∧
      0xFFFFFFFD % s.cfg.align ≠ 0 ∧ 2 ^ s.cfg.addrW < 0xFFFFFFFD + min (min 10 255) 64 := by decide

/-- The key 0x0B01 is none of the fourteen. -/
theorem test_witness_unknown_key :
    ∀ k ∈ RequestKind.all, k.key start.cfg.msftVendorCode ≠ (⟨0x01#8, 0x0B#8, 0#8, 0#8, 0#8, 0#8, 0#8, 0#8⟩ : Record).req.key := by
  decide

theorem test_witness_ms_os : (5#16 : HWord) ≠ start.cfg.msftIndex ∧ (4#16 : HWord) = start.cfg.msftIndex := by decide

theorem test_witness_every_setup :
    [anyRecord, anyRecord].length ≤ 2 ∧ configOk start.cfg = true ∧ 64 ≤ start.cfg.rxBufSize ∧
    (∀ e ∈ start.cfg.descTable, e.data + 64 ≤ 2 ^ start.cfg.addrW) := by decide

/-- A SETUP event that ends in `error` (P3 event 3). -/
theorem test_witness_erroring_setup :
    ∃ t, exec (.eventSetup [⟨0x01#8, 0x0B#8, 0#8, 0#8, 0#8, 0#8, 0#8, 0#8⟩]) start = .next t ∧
      t.eng.phase = .waitSetup := ⟨_, rfl, by decide⟩

/-- The two writers do write. -/
theorem test_witness_writers :
    (∃ t, exec (.setAddress 5#16 0#16 0#16) start = .next t ∧ t.eng.devAddr ≠ start.eng.devAddr) ∧
    (∃ t, exec (.setConfiguration 1#16 0#16 0#16) start = .next t ∧ t.eng.config ≠ start.eng.config) ∧
    Instr.setAddress 5#16 0#16 0#16 ≠ .eventBusReset ∧ Instr.setConfiguration 1#16 0#16 0#16 ≠ .eventBusReset :=
  ⟨⟨_, rfl, by decide⟩, ⟨_, rfl, by decide⟩, by decide, by decide⟩

/-- A staged packet: memory is written, an `ArmIn` is emitted, every premise of the whole-machine rules is met. -/
theorem test_witness_whole_machine :
    configOk start.cfg = true ∧ start.cfg.stageLongUnaligned = true ∧
    (∃ t, exec (.getDescriptor 0x0301#16 0#16 255#16) start = .next t ∧
      .armIn (some 0x20000000) 10 ∈ t.commands) ∧
    ((0x2000003F < start.cfg.scratchBase ∨ start.cfg.scratchBase + 64 ≤ 0x20000048) ∧
      (0x20000048 < start.cfg.replyBase ∨ start.cfg.replyBase + 8 ≤ 0x20000048)) :=
  ⟨by decide, by decide, ⟨_, rfl, by decide⟩, by decide⟩

/-- 128 bytes: two full packets and the zero-length one; 130 bytes of a longer request; nothing at all. -/
theorem test_witness_in_transfer :
    configOk start.cfg = true ∧ start.cfg.decided ∧
    (128#16 : HWord).toNat = min (128#16 : HWord).toNat (128#16 : HWord).toNat ∧
    (130#16 : HWord).toNat = min (130#16 : HWord).toNat (255#16 : HWord).toNat ∧
    (0#16 : HWord).toNat = min (18#16 : HWord).toNat (0#16 : HWord).toNat ∧
    0x1300 + (130#16 : HWord).toNat < 2 ^ start.cfg.addrW ∧ 2 ≤ (130#16 : HWord).toNat / 64 :=
  ⟨by decide, ⟨rfl, rfl, rfl, rfl, rfl⟩, by decide, by decide, by decide, by decide, by decide⟩

/-- Scenario C, one byte, and the whole receive buffer. -/
theorem test_witness_out_transfer :
    (1 ≤ (200#16 : HWord).toNat ∧ (200#16 : HWord).toNat ≤ start.cfg.rxBufSize) ∧
    (1 ≤ (1#16 : HWord).toNat ∧ (1024#16 : HWord).toNat ≤ start.cfg.rxBufSize) ∧
    start.cfg.rxbufBase + (1024#16 : HWord).toNat < 2 ^ start.cfg.addrW ∧ start.answers.download = true := by decide

/-- Two bytes arrive for the packet armed in `RXBUF`. -/
theorem test_witness_out_packet :
    let s := { start with
      agenda := [.raise (.outDone 0#4 1#16) [0xAA#8, 0xBB#8]]
      port := { start.port with outArmed := some ⟨some 0x20000100, 2⟩ } }
    configOk s.cfg = true ∧ s.eng.fatal = false ∧ Memory.wf s.mem = true ∧
    s.agenda = .raise (.outDone 0#4 1#16) [0xAA#8, 0xBB#8] :: [] ∧
    s.port.outArmed = some ⟨some 0x20000100, [0xAA#8, 0xBB#8].length⟩ ∧
    0x20000100 + [0xAA#8, 0xBB#8].length ≤ 2 ^ s.cfg.addrW := by decide

/-- A SETUP packet cancels an OUT packet of which one byte has been written; a bus reset one of which all have. -/
theorem test_witness_cancelled_out_packet :
    let s := { start with
      agenda := [.raise (.setup [anyRecord]) [0xAA#8]]
      port := { start.port with outArmed := some ⟨some 0x20000100, 2⟩ } }
    configOk s.cfg = true ∧ s.eng.fatal = false ∧ Memory.wf s.mem = true ∧
    s.agenda = .raise (.setup [anyRecord]) [0xAA#8] :: [] ∧ s.port.outArmed = some ⟨some 0x20000100, 2⟩ ∧
    [0xAA#8].length ≤ 2 ∧ [0xAA#8, 0xBB#8].length ≤ 2 ∧ 0x20000100 + 2 ≤ 2 ^ s.cfg.addrW ∧
    (nextOf (step s)).map (fun t => (Memory.read t.mem 0x20000100, Memory.read t.mem 0x20000101, t.port.outArmed)) =
      some (0xAA#8, 0#8, none) := by decide

/-- The moves of the host: an armed IN packet, an armed OUT packet, a halted half, nothing armed. -/
theorem test_witness_host_moves :
    let s := { start with
      port := { start.port with inArmed := some ⟨some 0x1000, 18⟩, outArmed := some ⟨some 0x20000100, 64⟩ } }
    (s.port.setupArmed = true ∧ s.pending = []) ∧
    (s.port.haltIn = false ∧ s.port.inArmed = some ⟨some 0x1000, 18⟩ ∧ 0x1000 % s.cfg.align = 0 ∧
      0x1000 + 18 ≤ 2 ^ s.cfg.addrW) ∧
    (s.port.haltOut = false ∧ s.port.outArmed = some ⟨some 0x20000100, 64⟩ ∧ [1#8, 2#8].length ≤ 64 ∧
      0x20000100 + 64 ≤ 2 ^ s.cfg.addrW ∧ Memory.wf s.mem = true) ∧
    (start.port.inArmed = none ∧ start.port.outArmed = none) ∧
    ((error .unknownKey start).port.haltIn = true ∧ (error .unknownKey start).port.haltOut = true) ∧
    { start.port with inArmed := some ⟨none, 0⟩ }.inArmed = some ⟨none, 0⟩ ∧
    { start.port with outArmed := some ⟨none, 0⟩ }.outArmed = some ⟨none, 0⟩ ∧ (0 < [1#8].length) ∧
    (start.port.setupArrived).setupArmed = false := by decide

theorem test_witness_transport_contract :
    (∃ t, hostMove (.setupPacket anyRecord) start = .next t) ∧ (∃ t, hostMove .inToken start = .next t) ∧
    (∃ t, hostMove (.outPacket []) start = .next t) ∧ (∃ t, hostMove .busReset start = .next t) :=
  ⟨⟨_, rfl⟩, ⟨_, rfl⟩, ⟨_, rfl⟩, ⟨_, rfl⟩⟩

/-- An undelivered SETUP event of one record, of two (the last that can be joined) and of three. -/
theorem test_witness_back_to_back :
    { start with pending := [.busReset, .setup [anyRecord, anyRecord]] }.pending =
      [.busReset] ++ [.setup [anyRecord, anyRecord]] ∧ [anyRecord, anyRecord].length < 3 ∧
    3 ≤ [anyRecord, anyRecord, anyRecord].length ∧ start.port.setupArrived.setupArmed = false ∧
    (start.pending.getLast? = none) := by decide

end Sys2Proof.Tests
end

/-! ## The scope of a step: what executing an instruction, and a step of any kind, leaves alone -/

section
namespace Sys2Proof.Machine

open Sys2Proof

/-! ### Executing an instruction: every meaning keeps to `Effect` -/

theorem beginRequest_effect (k : RequestKind) (value index length : HWord) (s : State) :
    Effect s (beginRequest k value index length s) := beginSetup_effect _ s

theorem setDevAddr_effect (s : State) (d : DevAddr) : Effect s (s.setDevAddr d) := Effect.record s _ s.sendLen

theorem setConfig_effect (s : State) (c : Byte) : Effect s (s.setConfig c) := Effect.record s _ s.sendLen

theorem fatalTrap_effect (c : FatalCause) (s : State) : Effect s (fatalTrap c s) := Effect.record s _ s.sendLen

/-- Stalling both halves, without the rest of the exception path (93 U11, `stall_on_set`). -/
theorem stallBoth_effect (s : State) : Effect s ((s.emit .stallIn).emit .stallOut) :=
  (Effect.emit s (c := .stallIn) trivial trivial).trans (Effect.emit _ (c := .stallOut) trivial trivial)

section Requests

variable {value index length : HWord} {s t : State}

theorem execSetAddress_effect (h : execSetAddress value index length s = .next t) : Effect s t := by
  cases h
  exact (((beginRequest_effect _ _ _ _ s).trans (setDevAddr_effect _ _)).trans
    (Effect.emit _ (c := .setAddress _) trivial trivial)).trans (ack_effect _)

theorem execSetConfiguration_effect (h : execSetConfiguration value index length s = .next t) : Effect s t := by
  cases h
  exact ((beginRequest_effect _ _ _ _ s).trans (setConfig_effect _ _)).trans (ack_effect _)

theorem execGetConfiguration_effect (h : execGetConfiguration value index length s = .next t) : Effect s t :=
  (beginRequest_effect _ _ _ _ s).trans (reply_effect (by simp) h)

theorem execGetStatusDevice_effect (h : execGetStatusDevice value index length s = .next t) : Effect s t :=
  (beginRequest_effect _ _ _ _ s).trans (reply_effect (by simp [bytesLe16]) h)

theorem execGetStatusEndpoint_effect (h : execGetStatusEndpoint value index length s = .next t) : Effect s t := by
  refine (beginRequest_effect .getStatusEndpoint value index length s).trans ?_
  simp only [execGetStatusEndpoint] at h
  split at h
  · cases h; exact error_effect _ _
  · exact reply_effect (by simp [endpointStatus]) h

theorem execClearFeatureEndpoint_effect (h : execClearFeatureEndpoint value index length s = .next t) :
    Effect s t := by
  refine (beginRequest_effect .clearFeatureEndpoint value index length s).trans ?_
  simp only [execClearFeatureEndpoint] at h
  split at h
  · cases h; exact error_effect _ _
  · cases h; exact ack_effect _

theorem execSetFeatureEndpoint_effect (h : execSetFeatureEndpoint value index length s = .next t) :
    Effect s t := by
  refine (beginRequest_effect .setFeatureEndpoint value index length s).trans ?_
  simp only [execSetFeatureEndpoint] at h
  split at h
  · cases h; exact error_effect _ _
  · split at h
    · cases h; exact (stallBoth_effect _).trans (ack_effect _)
    · cases h; exact ack_effect _

theorem execGetDescriptor_effect (h : execGetDescriptor value index length s = .next t) : Effect s t := by
  refine (beginRequest_effect .getDescriptor value index length s).trans ?_
  simp only [execGetDescriptor] at h
  split at h
  · cases h; exact error_effect _ _
  · obtain ⟨n, -, h⟩ := orFault_eq_next h
    exact send_effect h

theorem execMsOsDescriptor_effect (h : execMsOsDescriptor value index length s = .next t) : Effect s t := by
  refine (beginRequest_effect .msOsDescriptor value index length s).trans ?_
  simp only [execMsOsDescriptor] at h
  split at h
  · cases h; exact error_effect _ _
  · exact send_effect h

theorem execDfuDnload_effect (h : execDfuDnload value index length s = .next t) : Effect s t := by
  refine (beginRequest_effect .dfuDnload value index length s).trans ?_
  simp only [execDfuDnload] at h
  split at h
  · cases h; exact error_effect _ _
  · split at h
    · cases h; exact (Effect.addCall _ _).trans (ackOrError_effect _ _ _)
    · exact recv_effect h

theorem execDfuGetstatus_effect (h : execDfuGetstatus value index length s = .next t) : Effect s t := by
  refine (beginRequest_effect .dfuGetstatus value index length s).trans ?_
  simp only [execDfuGetstatus] at h
  split at h
  · cases h; exact error_effect _ _
  · split at h
    · exact (Effect.addCall _ _).trans (reply_effect (by simp [statusBytes]) h)
    · cases h; exact (Effect.addCall _ _).trans (error_effect _ _)

theorem execDfuClrstatus_effect (h : execDfuClrstatus value index length s = .next t) : Effect s t := by
  refine (beginRequest_effect .dfuClrstatus value index length s).trans ?_
  simp only [execDfuClrstatus] at h
  split at h
  · cases h; exact error_effect _ _
  · cases h; exact (Effect.addCall _ _).trans (ackOrError_effect _ _ _)

theorem execDfuGetstate_effect (h : execDfuGetstate value index length s = .next t) : Effect s t := by
  refine (beginRequest_effect .dfuGetstate value index length s).trans ?_
  simp only [execDfuGetstate] at h
  split at h
  · cases h; exact error_effect _ _
  · exact (Effect.addCall _ _).trans (reply_effect (by simp) h)

theorem execDfuAbort_effect (h : execDfuAbort value index length s = .next t) : Effect s t := by
  refine (beginRequest_effect .dfuAbort value index length s).trans ?_
  simp only [execDfuAbort] at h
  split at h
  · cases h; exact error_effect _ _
  · cases h; exact (Effect.addCall _ _).trans (ackOrError_effect _ _ _)

theorem execUnknownKey_effect {key : HWord} (h : execUnknownKey key value index length s = .next t) :
    Effect s t := by
  cases h
  exact (beginSetup_effect _ s).trans (error_effect _ _)

end Requests

theorem dispatch_effect {q : Req} {s t : State} (h : dispatch q s = .next t) : Effect s t := by
  unfold dispatch at h
  split at h
  · exact execSetAddress_effect h
  · exact execSetConfiguration_effect h
  · exact execGetConfiguration_effect h
  · exact execGetStatusDevice_effect h
  · exact execGetStatusEndpoint_effect h
  · exact execClearFeatureEndpoint_effect h
  · exact execSetFeatureEndpoint_effect h
  · exact execGetDescriptor_effect h
  · exact execMsOsDescriptor_effect h
  · exact execDfuDnload_effect h
  · exact execDfuGetstatus_effect h
  · exact execDfuClrstatus_effect h
  · exact execDfuGetstate_effect h
  · exact execDfuAbort_effect h
  · exact execUnknownKey_effect h

theorem execEventSetup_effect {recs : List Record} {s t : State} (h : execEventSetup recs s = .next t) :
    Effect s t := by
  unfold execEventSetup at h
  split at h
  · exact dispatch_effect h
  · cases h

theorem execEventInDone_effect {ep : EpNum} {n : HWord} {s t : State} (h : execEventInDone ep n s = .next t) :
    Effect s t := by
  unfold execEventInDone at h
  split at h
  · cases h; exact fatalTrap_effect _ s
  · split at h
    · exact inAdvance_effect h
    · exact inAdvance_effect h
    · cases h; exact endTransfer_effect s
    all_goals cases h; exact error_effect _ s

theorem execEventOutDone_effect {ep : EpNum} {n : HWord} {s t : State} (h : execEventOutDone ep n s = .next t) :
    Effect s t := by
  unfold execEventOutDone at h
  split at h
  · cases h; exact fatalTrap_effect _ s
  · split at h
    · exact outAdvance_effect h
    · cases h; exact endTransfer_effect s
    all_goals cases h; exact error_effect _ s

theorem execEventBusReset_effect {s t : State} (h : execEventBusReset s = .next t) : Effect s t := by
  cases h
  exact (Effect.record s _ _).trans (Effect.emit _ (c := .armSetup) trivial trivial)

/-- Every instruction keeps to `Effect`. -/
theorem exec_effect {i : Instr} {s t : State} (h : exec i s = .next t) : Effect s t := by
  cases i with
  | setAddress => exact execSetAddress_effect h
  | setConfiguration => exact execSetConfiguration_effect h
  | getConfiguration => exact execGetConfiguration_effect h
  | getStatusDevice => exact execGetStatusDevice_effect h
  | getStatusEndpoint => exact execGetStatusEndpoint_effect h
  | clearFeatureEndpoint => exact execClearFeatureEndpoint_effect h
  | setFeatureEndpoint => exact execSetFeatureEndpoint_effect h
  | getDescriptor => exact execGetDescriptor_effect h
  | msOsDescriptor => exact execMsOsDescriptor_effect h
  | dfuDnload => exact execDfuDnload_effect h
  | dfuGetstatus => exact execDfuGetstatus_effect h
  | dfuClrstatus => exact execDfuClrstatus_effect h
  | dfuGetstate => exact execDfuGetstate_effect h
  | dfuAbort => exact execDfuAbort_effect h
  | unknownKey => exact execUnknownKey_effect h
  | eventSetup => exact execEventSetup_effect h
  | eventInDone => exact execEventInDone_effect h
  | eventOutDone => exact execEventOutDone_effect h
  | eventBusReset => exact execEventBusReset_effect h

theorem exec_cfg {i : Instr} {s t : State} (h : exec i s = .next t) : t.cfg = s.cfg := by
  obtain ⟨hcfg, -⟩ := (exec_effect h).outside
  exact hcfg

/-! ### The moves of the agents outside the engine -/

/-- What every move of an agent outside the engine keeps to: the parameters, the engine's record, what it has emitted and
asked, and the canonical form of memory. -/
structure EngineUntouched (s t : State) : Prop where
  cfg : t.cfg = s.cfg
  eng : t.eng = s.eng
  commands : t.commands = s.commands
  calls : t.calls = s.calls
  sendLen : t.sendLen = s.sendLen
  canonical : Memory.wf s.mem = true → Memory.wf t.mem = true

theorem EngineUntouched.refl (s : State) : EngineUntouched s s := ⟨rfl, rfl, rfl, rfl, rfl, id⟩

theorem EngineUntouched.trans {s t u : State} (h : EngineUntouched s t) (h' : EngineUntouched t u) :
    EngineUntouched s u :=
  ⟨h'.cfg.trans h.cfg, h'.eng.trans h.eng, h'.commands.trans h.commands, h'.calls.trans h.calls,
    h'.sendLen.trans h.sendLen, h'.canonical ∘ h.canonical⟩

theorem takeTurn_engineUntouched (s : State) : EngineUntouched s s.takeTurn := ⟨rfl, rfl, rfl, rfl, rfl, id⟩

theorem addWire_engineUntouched (s : State) (w : HostSees) : EngineUntouched s (s.addWire w) :=
  ⟨rfl, rfl, rfl, rfl, rfl, id⟩

theorem addPending_engineUntouched (s : State) (e : Event) : EngineUntouched s (s.addPending e) :=
  ⟨rfl, rfl, rfl, rfl, rfl, id⟩

/-- The transport's record changes and an event becomes pending: how every move that raises an event ends. -/
theorem setPort_addPending_engineUntouched (s : State) (p : Transport) (e : Event) :
    EngineUntouched s ((s.setPort p).addPending e) := ⟨rfl, rfl, rfl, rfl, rfl, id⟩

theorem dmaWrite_engineUntouched {p : Armed} {bs : List Byte} {s t : State} (h : dmaWrite p bs s = .ok t) :
    EngineUntouched s t := by
  obtain ⟨m, rfl, hwf, -⟩ := dmaWrite_ok h
  exact ⟨rfl, rfl, rfl, rfl, rfl, hwf⟩

theorem dmaInWindow_engineUntouched {dma : List Byte} {s t : State} (h : dmaInWindow dma s = .ok t) :
    EngineUntouched s t := by
  obtain ⟨m, rfl, hwf, -⟩ := dmaInWindow_ok h
  exact ⟨rfl, rfl, rfl, rfl, rfl, hwf⟩

theorem inPayload_engineUntouched {p : Armed} {s t : State} {bs : List Byte} (h : inPayload p s = .ok (bs, t)) :
    EngineUntouched s t := by
  unfold inPayload at h
  split at h
  · cases h; exact .refl s
  · split at h
    · split at h
      · cases h; exact .refl s
      · cases h
    · cases h; exact ⟨rfl, rfl, rfl, rfl, rfl, id⟩

theorem hostSetup_engineUntouched (r : Record) (s : State) : EngineUntouched s (hostSetup r s) := by
  unfold hostSetup
  split
  · exact ⟨rfl, rfl, rfl, rfl, rfl, id⟩
  · split
    · exact setPort_addPending_engineUntouched s _ _
    · exact .refl s

theorem hostIn_engineUntouched {s t : State} (h : hostIn s = .next t) : EngineUntouched s t := by
  unfold hostIn at h
  split at h
  · cases h; exact addWire_engineUntouched s _
  · split at h
    · cases h; exact addWire_engineUntouched s _
    · obtain ⟨⟨bs, u⟩, hu, h⟩ := orFault_eq_next h
      cases h
      exact ((inPayload_engineUntouched hu).trans (addWire_engineUntouched u _)).trans
        (setPort_addPending_engineUntouched _ _ _)

theorem hostOut_engineUntouched {bs : List Byte} {s t : State} (h : hostOut bs s = .next t) :
    EngineUntouched s t := by
  unfold hostOut at h
  split at h
  · cases h; exact addWire_engineUntouched s _
  · split at h
    · cases h; exact addWire_engineUntouched s _
    · split at h
      · obtain ⟨u, hu, h⟩ := orFault_eq_next h
        cases h
        exact (dmaWrite_engineUntouched hu).trans (setPort_addPending_engineUntouched u _ _)
      · cases h; exact .refl s

theorem hostMove_engineUntouched {m : HostMove} {s t : State} (h : hostMove m s = .next t) :
    EngineUntouched s t := by
  cases m with
  | setupPacket r => cases h; exact hostSetup_engineUntouched r s
  | inToken => exact hostIn_engineUntouched h
  | outPacket bs => exact hostOut_engineUntouched h
  | busReset => cases h; exact setPort_addPending_engineUntouched s _ _

theorem raiseEvent_engineUntouched {e : Event} {dma : List Byte} {s t : State} (h : raiseEvent e dma s = .next t) :
    EngineUntouched s t := by
  cases e with
  | setup recs =>
    obtain ⟨u, hu, h⟩ := orFault_eq_next h
    cases h
    exact (dmaInWindow_engineUntouched hu).trans (setPort_addPending_engineUntouched u _ _)
  | inDone ep n =>
    simp only [raiseEvent] at h
    split at h
    · cases h; exact setPort_addPending_engineUntouched s _ _
    · cases h; exact addPending_engineUntouched s _
  | outDone ep n =>
    simp only [raiseEvent] at h
    split at h
    · obtain ⟨u, hu, h⟩ := orFault_eq_next h
      cases h
      exact (dmaInWindow_engineUntouched hu).trans (setPort_addPending_engineUntouched u _ _)
    · cases h; exact addPending_engineUntouched s _
  | busReset =>
    obtain ⟨u, hu, h⟩ := orFault_eq_next h
    cases h
    exact (dmaInWindow_engineUntouched hu).trans (setPort_addPending_engineUntouched u _ _)

/-! ### The step -/

/-- What a step can do: the engine was not stopped, and either nothing of it was touched (an agent outside moved, or there
was nothing to do) or it executed the pending event that the agenda names. -/
theorem step_cases {s t : State} (h : step s = .next t) :
    configOk s.cfg = true ∧ s.eng.fatal = false ∧
      (EngineUntouched s t ∨
        ∃ k a ts e, s.agenda = .deliver k a :: ts ∧ s.pending[k]? = some e ∧ exec e.instr (s.takeEvent k a) = .next t) := by
  unfold step at h
  split at h
  · cases h
  next hok =>
  split at h
  · cases h
  next hfatal =>
  refine ⟨by simpa using hok, by simpa using hfatal, ?_⟩
  split at h
  · cases h; exact .inl (.refl s)
  · exact .inl ((takeTurn_engineUntouched s).trans (hostMove_engineUntouched h))
  · exact .inl ((takeTurn_engineUntouched s).trans (raiseEvent_engineUntouched h))
  · next k a ts hagenda =>
    split at h
    · next e he => exact .inr ⟨k, a, ts, e, hagenda, he, h⟩
    · cases h; exact .inl (takeTurn_engineUntouched s)

/-! ### The obligations of 00_scope.md -/

/-- Settles O45: the relation `Effect`, which every meaning keeps to, says it and more. -/
theorem executionLeavesTheOutsideAlone : Obligations.ExecutionLeavesTheOutsideAlone := by
  intro i s t h
  have heff := exec_effect h
  obtain ⟨cs, hcommands, hport, -⟩ := heff.commands
  exact ⟨heff.outside, heff.calls, cs, hcommands, hport⟩

/-- Settles O11: a move of the outside leaves the parameters with the rest of the engine, a delivery changes only the
agenda, the pending events and the inputs before it executes an instruction. -/
theorem stepKeepsTheParameters : Obligations.StepKeepsTheParameters := by
  intro s t h
  obtain ⟨-, -, huntouched | ⟨k, a, ts, e, -, -, hexec⟩⟩ := step_cases h
  · exact huntouched.cfg
  · calc t.cfg = (s.takeEvent k a).cfg := exec_cfg hexec
      _ = s.cfg := State.takeEvent_cfg s k a

end Sys2Proof.Machine
end

/-! ## The invariant of a run, and who writes memory, the address and the configuration -/

section
namespace Sys2Proof.Machine

open Sys2Proof

/-! ### What a request can do

The meaning of every request has one shape: it begins (40 R111), writes at most one register of its own, and ends in one of
five ways. Said once, the statements about all instructions are statements about the five endings and the completions. -/

/-- `u` is `s` when the SETUP step of the request instruction `i` has done all that comes before its ending: the transfer
context is reset, memory is untouched, and `dev_addr` and `config` are written by their own request alone. -/
structure RequestBegun (i : Instr) (s u : State) : Prop where
  cfg : u.cfg = s.cfg
  mem : u.mem = s.mem
  xfer : u.eng.xfer = ⟨0, 0#16, false⟩
  devAddr : u.eng.devAddr ≠ s.eng.devAddr → ∃ value index length, i = .setAddress value index length
  config : u.eng.config ≠ s.eng.config → ∃ value index length, i = .setConfiguration value index length

/-- The five endings of a SETUP step: `error`, `ack`, `send` from a region of 10 R33, `reply`, and `recv` of a DNLOAD. -/
inductive RequestEnds (u t : State) : Prop where
  | erred (c : ErrorCause) (h : t = error c u)
  | acked (h : t = ack u)
  | sent (r : Nat × Nat) (hr : r ∈ regions u.cfg) (dataLen requested : HWord) (h : send r.1 dataLen requested u = .next t)
  | replied (bs : List Byte) (requested : HWord) (h : reply bs requested u = .next t)
  | received (hkey : u.eng.req.key = 0x0121#16) (hlen : u.eng.req.length ≠ 0#16)
      (h : recv u.cfg.rxbufBase u.eng.req.length u = .next t)

/-- The SETUP step of the request instruction `i` takes `s` to `t`. -/
def RequestRuns (i : Instr) (s t : State) : Prop := ∃ u, RequestBegun i s u ∧ RequestEnds u t

/-- A request that writes neither register. -/
theorem RequestBegun.of_eng {i : Instr} {s u : State} (hcfg : u.cfg = s.cfg) (hmem : u.mem = s.mem)
    (hxfer : u.eng.xfer = ⟨0, 0#16, false⟩) (hdevAddr : u.eng.devAddr = s.eng.devAddr)
    (hconfig : u.eng.config = s.eng.config) : RequestBegun i s u :=
  ⟨hcfg, hmem, hxfer, fun h => absurd hdevAddr h, fun h => absurd hconfig h⟩

theorem beginSetup_begun (i : Instr) (q : Req) (s : State) : RequestBegun i s (beginSetup q s) :=
  .of_eng rfl rfl rfl rfl rfl

theorem beginRequest_begun (i : Instr) (k : RequestKind) (value index length : HWord) (s : State) :
    RequestBegun i s (beginRequest k value index length s) := beginSetup_begun i _ s

theorem RequestBegun.addCall {i : Instr} {s u : State} (h : RequestBegun i s u) (c : FwCall) :
    RequestBegun i s (u.addCall c) := ⟨h.cfg, h.mem, h.xfer, h.devAddr, h.config⟩

theorem RequestBegun.emit {i : Instr} {s u : State} (h : RequestBegun i s u) (c : Command) :
    RequestBegun i s (u.emit c) := ⟨h.cfg, h.mem, h.xfer, h.devAddr, h.config⟩

theorem msOs_mem_regions (c : Config) : (c.msOsData, c.msOsLength.toNat) ∈ regions c := by simp [regions]

theorem entry_mem_regions {c : Config} {e : DescEntry} (he : e ∈ c.descTable) : (e.data, entryExtent e) ∈ regions c :=
  List.mem_append_right [_, _, _, _] (List.mem_map_of_mem (f := fun e => (e.data, entryExtent e)) he)

theorem ackOrError_ends (accepted : Bool) (c : ErrorCause) (u : State) : RequestEnds u (ackOrError accepted c u) := by
  cases accepted
  · exact .erred c rfl
  · exact .acked rfl

section Requests

variable {value index length : HWord} {s t : State}

theorem execSetAddress_runs (h : execSetAddress value index length s = .next t) :
    RequestRuns (.setAddress value index length) s t := by
  cases h
  refine ⟨_, ?_, .acked rfl⟩
  exact ⟨rfl, rfl, rfl, fun _ => ⟨_, _, _, rfl⟩, fun h => absurd rfl h⟩

theorem execSetConfiguration_runs (h : execSetConfiguration value index length s = .next t) :
    RequestRuns (.setConfiguration value index length) s t := by
  cases h
  refine ⟨_, ?_, .acked rfl⟩
  exact ⟨rfl, rfl, rfl, fun h => absurd rfl h, fun _ => ⟨_, _, _, rfl⟩⟩

theorem execGetConfiguration_runs (h : execGetConfiguration value index length s = .next t) :
    RequestRuns (.getConfiguration value index length) s t :=
  ⟨_, beginRequest_begun _ _ _ _ _ s, .replied _ _ h⟩

theorem execGetStatusDevice_runs (h : execGetStatusDevice value index length s = .next t) :
    RequestRuns (.getStatusDevice value index length) s t :=
  ⟨_, beginRequest_begun _ _ _ _ _ s, .replied _ _ h⟩

theorem execGetStatusEndpoint_runs (h : execGetStatusEndpoint value index length s = .next t) :
    RequestRuns (.getStatusEndpoint value index length) s t := by
  refine ⟨_, beginRequest_begun _ .getStatusEndpoint value index length s, ?_⟩
  simp only [execGetStatusEndpoint] at h
  split at h
  · cases h; exact .erred _ rfl
  · exact .replied _ _ h

theorem execClearFeatureEndpoint_runs (h : execClearFeatureEndpoint value index length s = .next t) :
    RequestRuns (.clearFeatureEndpoint value index length) s t := by
  refine ⟨_, beginRequest_begun _ .clearFeatureEndpoint value index length s, ?_⟩
  simp only [execClearFeatureEndpoint] at h
  split at h
  · cases h; exact .erred _ rfl
  · cases h; exact .acked rfl

theorem execSetFeatureEndpoint_runs (h : execSetFeatureEndpoint value index length s = .next t) :
    RequestRuns (.setFeatureEndpoint value index length) s t := by
  have hbegun := beginRequest_begun (.setFeatureEndpoint value index length) .setFeatureEndpoint value index length s
  simp only [execSetFeatureEndpoint] at h
  split at h
  · cases h; exact ⟨_, hbegun, .erred _ rfl⟩
  · split at h
    · cases h; exact ⟨_, (hbegun.emit .stallIn).emit .stallOut, .acked rfl⟩
    · cases h; exact ⟨_, hbegun, .acked rfl⟩

theorem execGetDescriptor_runs (h : execGetDescriptor value index length s = .next t) :
    RequestRuns (.getDescriptor value index length) s t := by
  refine ⟨_, beginRequest_begun _ .getDescriptor value index length s, ?_⟩
  simp only [execGetDescriptor] at h
  split at h
  · cases h; exact .erred _ rfl
  · next e he =>
    obtain ⟨n, -, h⟩ := orFault_eq_next h
    exact .sent (e.data, entryExtent e) (entry_mem_regions (List.mem_of_find?_eq_some he)) n length h

theorem execMsOsDescriptor_runs (h : execMsOsDescriptor value index length s = .next t) :
    RequestRuns (.msOsDescriptor value index length) s t := by
  refine ⟨_, beginRequest_begun _ .msOsDescriptor value index length s, ?_⟩
  simp only [execMsOsDescriptor] at h
  split at h
  · cases h; exact .erred _ rfl
  · exact .sent _ (msOs_mem_regions _) _ length h

theorem execDfuDnload_runs (h : execDfuDnload value index length s = .next t) :
    RequestRuns (.dfuDnload value index length) s t := by
  have hbegun := beginRequest_begun (.dfuDnload value index length) .dfuDnload value index length s
  simp only [execDfuDnload] at h
  split at h
  · cases h; exact ⟨_, hbegun, .erred _ rfl⟩
  · split at h
    · cases h; exact ⟨_, hbegun.addCall _, ackOrError_ends _ _ _⟩
    · next hlen => exact ⟨_, hbegun, .received rfl hlen h⟩

theorem execDfuGetstatus_runs (h : execDfuGetstatus value index length s = .next t) :
    RequestRuns (.dfuGetstatus value index length) s t := by
  have hbegun := beginRequest_begun (.dfuGetstatus value index length) .dfuGetstatus value index length s
  simp only [execDfuGetstatus] at h
  split at h
  · cases h; exact ⟨_, hbegun, .erred _ rfl⟩
  · split at h
    · exact ⟨_, hbegun.addCall _, .replied _ _ h⟩
    · cases h; exact ⟨_, hbegun.addCall _, .erred _ rfl⟩

theorem execDfuClrstatus_runs (h : execDfuClrstatus value index length s = .next t) :
    RequestRuns (.dfuClrstatus value index length) s t := by
  have hbegun := beginRequest_begun (.dfuClrstatus value index length) .dfuClrstatus value index length s
  simp only [execDfuClrstatus] at h
  split at h
  · cases h; exact ⟨_, hbegun, .erred _ rfl⟩
  · cases h; exact ⟨_, hbegun.addCall _, ackOrError_ends _ _ _⟩

theorem execDfuGetstate_runs (h : execDfuGetstate value index length s = .next t) :
    RequestRuns (.dfuGetstate value index length) s t := by
  have hbegun := beginRequest_begun (.dfuGetstate value index length) .dfuGetstate value index length s
  simp only [execDfuGetstate] at h
  split at h
  · cases h; exact ⟨_, hbegun, .erred _ rfl⟩
  · exact ⟨_, hbegun.addCall _, .replied _ _ h⟩

theorem execDfuAbort_runs (h : execDfuAbort value index length s = .next t) :
    RequestRuns (.dfuAbort value index length) s t := by
  have hbegun := beginRequest_begun (.dfuAbort value index length) .dfuAbort value index length s
  simp only [execDfuAbort] at h
  split at h
  · cases h; exact ⟨_, hbegun, .erred _ rfl⟩
  · cases h; exact ⟨_, hbegun.addCall _, ackOrError_ends _ _ _⟩

theorem execUnknownKey_runs {key : HWord} (h : execUnknownKey key value index length s = .next t) :
    RequestRuns (.unknownKey key value index length) s t := by
  cases h
  exact ⟨_, beginSetup_begun _ _ s, .erred _ rfl⟩

end Requests

/-- An instruction that is no event is a request, and runs as one. -/
theorem exec_request {i : Instr} {s t : State} (hi : i.event = none) (h : exec i s = .next t) : RequestRuns i s t := by
  cases i with
  | setAddress => exact execSetAddress_runs h
  | setConfiguration => exact execSetConfiguration_runs h
  | getConfiguration => exact execGetConfiguration_runs h
  | getStatusDevice => exact execGetStatusDevice_runs h
  | getStatusEndpoint => exact execGetStatusEndpoint_runs h
  | clearFeatureEndpoint => exact execClearFeatureEndpoint_runs h
  | setFeatureEndpoint => exact execSetFeatureEndpoint_runs h
  | getDescriptor => exact execGetDescriptor_runs h
  | msOsDescriptor => exact execMsOsDescriptor_runs h
  | dfuDnload => exact execDfuDnload_runs h
  | dfuGetstatus => exact execDfuGetstatus_runs h
  | dfuClrstatus => exact execDfuClrstatus_runs h
  | dfuGetstate => exact execDfuGetstate_runs h
  | dfuAbort => exact execDfuAbort_runs h
  | unknownKey => exact execUnknownKey_runs h
  | eventSetup => cases hi
  | eventInDone => cases hi
  | eventOutDone => cases hi
  | eventBusReset => cases hi

/-- The instruction of a decoded request is no event (30_encoding.md rules R89, R90). -/
theorem instr_event_eq_none (vc : Byte) (q : Req) : (q.instr vc).event = none := by
  unfold Req.instr
  split <;> rfl

/-- The dispatcher executes the instruction that the decoder gives (rule R89). -/
theorem dispatch_eq_exec (q : Req) (s : State) : dispatch q s = exec (q.instr s.cfg.msftVendorCode) s := by
  unfold dispatch Req.instr
  cases classify s.cfg.msftVendorCode q.key with
  | none => rfl
  | some k => cases k <;> rfl

theorem newestRecord_eq_some {recs : List Record} {r : Record} (h : newestRecord recs = some r) :
    ∃ older, recs = older ++ [r] := by
  unfold newestRecord at h
  split at h
  · cases h; exact ⟨[], rfl⟩
  · next r' _ => cases h; exact ⟨[r'], rfl⟩
  · next r' r'' _ => cases h; exact ⟨[r', r''], rfl⟩
  · cases h

/-- A SETUP event runs the request of its newest record (40_control_state_machine.md rule R111). -/
theorem execEventSetup_runs {recs : List Record} {s t : State} (h : execEventSetup recs s = .next t) :
    ∃ older r, recs = older ++ [r] ∧ RequestRuns (r.req.instr s.cfg.msftVendorCode) s t := by
  unfold execEventSetup at h
  split at h
  · next r hr =>
    obtain ⟨older, rfl⟩ := newestRecord_eq_some hr
    rw [dispatch_eq_exec] at h
    exact ⟨older, r, rfl, exec_request (instr_event_eq_none _ _) h⟩
  · cases h

/-! ### What a completion can do -/

/-- What EVENT_IN_DONE can do (40_control_state_machine.md rules R116, R117). -/
theorem execEventInDone_cases {ep : EpNum} {n : HWord} {s t : State} (h : execEventInDone ep n s = .next t) :
    (ep ≠ 0#4 ∧ t = fatalTrap .nonzeroEp s) ∨
    ((s.eng.phase = .inData ∨ s.eng.phase = .lastInData) ∧ inAdvance n s = .next t) ∨
    (s.eng.phase = .waitStatusIn ∧ t = endTransfer s) ∨
    (s.eng.phase ≠ .inData ∧ s.eng.phase ≠ .lastInData ∧ s.eng.phase ≠ .waitStatusIn ∧ t = error .inBadPhase s) := by
  unfold execEventInDone at h
  split at h
  · next hep => cases h; exact .inl ⟨hep, rfl⟩
  · split at h
    · next hp => exact .inr (.inl ⟨.inl hp, h⟩)
    · next hp => exact .inr (.inl ⟨.inr hp, h⟩)
    · next hp => cases h; exact .inr (.inr (.inl ⟨hp, rfl⟩))
    all_goals next hp => cases h; simp [hp]

/-- What EVENT_OUT_DONE can do (rules R118, R119). -/
theorem execEventOutDone_cases {ep : EpNum} {n : HWord} {s t : State} (h : execEventOutDone ep n s = .next t) :
    (ep ≠ 0#4 ∧ t = fatalTrap .nonzeroEp s) ∨
    (s.eng.phase = .outData ∧ outAdvance n s = .next t) ∨
    (s.eng.phase = .waitStatusOut ∧ t = endTransfer s) ∨
    (s.eng.phase ≠ .outData ∧ s.eng.phase ≠ .waitStatusOut ∧ t = error .outBadPhase s) := by
  unfold execEventOutDone at h
  split at h
  · next hep => cases h; exact .inl ⟨hep, rfl⟩
  · split at h
    · next hp => exact .inr (.inl ⟨hp, h⟩)
    · next hp => cases h; exact .inr (.inr (.inl ⟨hp, rfl⟩))
    all_goals next hp => cases h; simp [hp]

/-! ### The invariant, phase by phase -/

/-- What the invariant says of the DNLOAD that runs in `OutData` (41 R144, R145, 44 R190). -/
def DnloadCount (s : State) : Prop :=
  s.eng.req.key = 0x0121#16 ∧ s.eng.xfer.remaining.toNat ≤ s.eng.req.length.toNat ∧
    s.eng.xfer.buffer + s.eng.xfer.remaining.toNat = s.cfg.rxbufBase + s.eng.req.length.toNat

/-- What the invariant says in the given phase: the count, and the last command. -/
def PhaseInv (s : State) : Phase → Prop
  | .waitSetup => s.commands.getLast? = some .armSetup
  | .inData =>
    64 ≤ s.eng.xfer.remaining.toNat ∧ ∃ a, s.commands.getLast? = some (.armIn a (armedLength s.eng.xfer.remaining))
  | .lastInData =>
    s.eng.xfer.remaining.toNat < 64 ∧ ∃ a, s.commands.getLast? = some (.armIn a (armedLength s.eng.xfer.remaining))
  | .outData =>
    1 ≤ s.eng.xfer.remaining.toNat ∧
      s.commands.getLast? = some (.armOut (some s.eng.xfer.buffer) (armedLength s.eng.xfer.remaining)) ∧ DnloadCount s
  | .waitStatusIn => s.commands.getLast? = some (.armIn none 0)
  | .waitStatusOut => True
  | .stalled => False

theorem engineInv_iff {s : State} :
    EngineInv s ↔ Memory.wf s.mem = true ∧ s.eng.xfer.buffer < addrLimit s.cfg ∧ PhaseInv s s.eng.phase := by
  constructor
  · intro h
    refine ⟨h.memCanonical, h.bufferInSpace, ?_⟩
    cases hp : s.eng.phase with
    | waitSetup => exact h.waitSetupArmed hp
    | inData => exact ⟨h.inDataFull hp, h.inPacketArmed (.inl hp)⟩
    | outData => exact ⟨h.outDataSome hp, h.outPacketArmed hp, h.outDataDnload hp⟩
    | lastInData => exact ⟨h.lastInDataShort hp, h.inPacketArmed (.inr hp)⟩
    | waitStatusIn => exact h.waitStatusInArmed hp
    | waitStatusOut => exact trivial
    | stalled => exact h.notStalled hp
  · rintro ⟨hmem, hbuffer, h⟩
    exact {
      memCanonical := hmem
      notStalled := fun hp => by rw [hp] at h; exact h
      inDataFull := fun hp => by rw [hp] at h; exact h.1
      lastInDataShort := fun hp => by rw [hp] at h; exact h.1
      outDataSome := fun hp => by rw [hp] at h; exact h.1
      inPacketArmed := fun hp => by rcases hp with hp | hp <;> rw [hp] at h <;> exact h.2
      outPacketArmed := fun hp => by rw [hp] at h; exact h.2.1
      waitSetupArmed := fun hp => by rw [hp] at h; exact h
      waitStatusInArmed := fun hp => by rw [hp] at h; exact h
      bufferInSpace := hbuffer
      outDataDnload := fun hp => by rw [hp] at h; exact h.2.2 }

/-- The invariant is about the parameters, the phase, the transfer context, the request, the commands and the canonical
form of memory, and about nothing else. -/
theorem EngineInv.congr {s t : State} (h : EngineInv s) (hcfg : t.cfg = s.cfg) (hphase : t.eng.phase = s.eng.phase)
    (hxfer : t.eng.xfer = s.eng.xfer) (hreq : t.eng.req = s.eng.req) (hcommands : t.commands = s.commands)
    (hmem : Memory.wf s.mem = true → Memory.wf t.mem = true) : EngineInv t := by
  obtain ⟨hwf, hbuffer, hinv⟩ := engineInv_iff.mp h
  have hsame : ∀ p, PhaseInv t p = PhaseInv s p := fun p => by
    cases p <;> simp only [PhaseInv, DnloadCount, hxfer, hreq, hcommands, hcfg]
  exact engineInv_iff.mpr ⟨hmem hwf, by rwa [hxfer, hcfg], by rwa [hphase, hsame]⟩

/-- A move of an agent outside the engine keeps it. -/
theorem EngineInv.untouched {s t : State} (h : EngineInv s) (hst : EngineUntouched s t) : EngineInv t :=
  h.congr hst.cfg (by rw [hst.eng]) (by rw [hst.eng]) (by rw [hst.eng]) hst.commands hst.canonical

theorem EngineInv.takeEvent {s : State} (h : EngineInv s) (k : Nat) (a : Answers) : EngineInv (s.takeEvent k a) :=
  h.congr rfl rfl rfl rfl rfl id

theorem EngineInv.fatalTrap {s : State} (h : EngineInv s) (c : FatalCause) : EngineInv (fatalTrap c s) :=
  h.congr rfl rfl rfl rfl rfl id

/-! ### The operations that end a step in a legal phase

From canonical memory and a pointer inside the address space each of them ends in the invariant, whatever held before. -/

section Endings

variable {s t : State}

theorem error_inv (hm : Memory.wf s.mem = true) (hb : s.eng.xfer.buffer < addrLimit s.cfg) (c : ErrorCause) :
    EngineInv (error c s) := engineInv_iff.mpr ⟨hm, hb, List.getLast?_concat⟩

theorem ack_inv (hm : Memory.wf s.mem = true) (hb : s.eng.xfer.buffer < addrLimit s.cfg) : EngineInv (ack s) :=
  engineInv_iff.mpr ⟨hm, hb, List.getLast?_concat⟩

theorem endTransfer_inv (hm : Memory.wf s.mem = true) (hb : s.eng.xfer.buffer < addrLimit s.cfg) :
    EngineInv (endTransfer s) := engineInv_iff.mpr ⟨hm, hb, List.getLast?_concat⟩

theorem statusOut_inv (hm : Memory.wf s.mem = true) (hb : s.eng.xfer.buffer < addrLimit s.cfg) :
    EngineInv (statusOut s) := by
  rw [statusOut_eq]
  exact engineInv_iff.mpr ⟨hm, hb, trivial⟩

/-- The packet that `arm_in_next()` arms is the last command (41_data_stage_chunking.md rule R140). -/
theorem armInNext_getLast? (h : armInNext s = .next t) :
    ∃ a, t.commands.getLast? = some (.armIn a (armedLength s.eng.xfer.remaining)) := by
  rcases armInNext_cases h with ⟨hk, rfl⟩ | ⟨-, h⟩
  · rw [hk]; exact ⟨none, List.getLast?_concat⟩
  · rcases armIn_cases h with ⟨-, rfl⟩ | ⟨-, rfl⟩
    · exact ⟨_, List.getLast?_concat⟩
    · exact ⟨_, List.getLast?_concat⟩

theorem armInNext_inv (h : armInNext s = .next t) (hm : Memory.wf s.mem = true)
    (hb : s.eng.xfer.buffer < addrLimit s.cfg) : EngineInv t := by
  have heffect := armInNext_effect h
  have heng := armInNext_eng h
  have hlast := armInNext_getLast? h
  refine engineInv_iff.mpr ⟨heffect.canonical hm, by rw [heng, heffect.outside.1]; exact hb, ?_⟩
  rw [heng]
  by_cases hfull : 64 ≤ s.eng.xfer.remaining.toNat
  · rw [phaseForRemaining_full hfull]
    simp only [PhaseInv, heng]
    exact ⟨hfull, hlast⟩
  · rw [phaseForRemaining_short (by omega)]
    simp only [PhaseInv, heng]
    exact ⟨by omega, hlast⟩

theorem send_inv {a : Nat} {dataLen requested : HWord} (h : send a dataLen requested s = .next t)
    (hm : Memory.wf s.mem = true) (ha : a < addrLimit s.cfg) : EngineInv t := by
  rcases send_cases h with ⟨-, -, rfl⟩ | h
  · exact statusOut_inv (s := loadSend a _ s) hm ha
  · exact armInNext_inv h hm ha

/-- An OUT packet of a DNLOAD stands armed. -/
theorem DnloadCount.armOut_inv (hcount : DnloadCount s)
    (h : armOut s.eng.xfer.buffer (armedLength s.eng.xfer.remaining) s = .next t) (hm : Memory.wf s.mem = true)
    (hb : s.eng.xfer.buffer < addrLimit s.cfg) (hr : s.eng.xfer.remaining ≠ 0#16) : EngineInv (t.setPhase .outData) := by
  rcases armOut_cases h with ⟨hk, -⟩ | ⟨-, -, -, rfl⟩
  · exact absurd (armedLength_eq_zero.mp hk) hr
  · have hsome : s.eng.xfer.remaining.toNat ≠ 0 := fun h0 => hr (BitVec.eq_of_toNat_eq h0)
    exact engineInv_iff.mpr ⟨hm, hb, Nat.one_le_iff_ne_zero.mpr hsome, List.getLast?_concat, hcount⟩

theorem recv_inv (h : recv s.cfg.rxbufBase s.eng.req.length s = .next t) (hc : configOk s.cfg = true)
    (hm : Memory.wf s.mem = true) (hkey : s.eng.req.key = 0x0121#16) (hlen : s.eng.req.length ≠ 0#16) : EngineInv t := by
  obtain ⟨u, hu, rfl⟩ := recv_cases h
  have hcount : DnloadCount (s.setXfer ⟨s.cfg.rxbufBase, s.eng.req.length, false⟩) := ⟨hkey, Nat.le_refl _, rfl⟩
  exact hcount.armOut_inv hu hm (configOk_rxbuf hc).1 hlen

end Endings

/-! ### Requests and events keep the invariant -/

theorem RequestRuns.inv {i : Instr} {s t : State} (hrun : RequestRuns i s t) (hc : configOk s.cfg = true)
    (hm : Memory.wf s.mem = true) : EngineInv t := by
  obtain ⟨u, hbegun, hends⟩ := hrun
  have hc : configOk u.cfg = true := by rwa [hbegun.cfg]
  have hm : Memory.wf u.mem = true := by rwa [hbegun.mem]
  have hb : u.eng.xfer.buffer < addrLimit u.cfg := by rw [hbegun.xfer]; exact Nat.two_pow_pos _
  cases hends with
  | erred c h => subst h; exact error_inv hm hb c
  | acked h => subst h; exact ack_inv hm hb
  | sent r hr dataLen requested h => exact send_inv h hm (configOk_region hc hr).1
  | replied bs requested h =>
    exact send_inv (reply_cases h) (Memory.wf_writeBytes hm _ bs) (configOk_reply hc).1
  | received hkey hlen h => exact recv_inv h hc hm hkey hlen

theorem inNext_inv {s t : State} (h : inNext s = .next t) (hm : Memory.wf s.mem = true)
    (hb : s.eng.xfer.buffer < addrLimit s.cfg) : EngineInv t := by
  rcases inNext_cases h with ⟨-, h⟩ | ⟨-, -, h⟩ | ⟨-, -, rfl⟩
  · exact armInNext_inv h hm hb
  · exact armInNext_inv h hm hb
  · exact statusOut_inv hm hb

theorem inAdvance_inv {n : HWord} {s t : State} (hi : EngineInv s) (h : inAdvance n s = .next t) : EngineInv t := by
  obtain ⟨-, hb, h⟩ := inAdvance_cases h
  exact inNext_inv h hi.memCanonical hb

/-- The bytes received move from the count to the pointer (41_data_stage_chunking.md rule R145). -/
theorem DnloadCount.advance {n : HWord} {s : State} {zlp : Bool} (h : DnloadCount s)
    (hn : n.toNat ≤ armedLength s.eng.xfer.remaining) :
    DnloadCount (s.setXfer ⟨s.eng.xfer.buffer + n.toNat, s.eng.xfer.remaining - n, zlp⟩) := by
  obtain ⟨hkey, hle, hsum⟩ := h
  have hsub := armedLength_sub hn
  have hmax : armedLength s.eng.xfer.remaining ≤ s.eng.xfer.remaining.toNat := Nat.min_le_left _ _
  refine ⟨hkey, ?_, ?_⟩
  · simp only [State.setXfer_eng, hsub]; omega
  · simp only [State.setXfer_eng, State.setXfer_cfg, hsub]; omega

theorem outNext_inv {s t : State} (h : outNext s = .next t) (hm : Memory.wf s.mem = true)
    (hb : s.eng.xfer.buffer < addrLimit s.cfg) (hp : s.eng.phase = .outData) (hcount : DnloadCount s) : EngineInv t := by
  rcases outNext_cases h with ⟨-, rfl⟩ | ⟨hr, h⟩
  · exact ack_inv hm hb
  · have hphase : t.eng.phase = .outData := by rw [armOut_eng h, hp]
    exact (hcount.armOut_inv h hm hb hr).congr rfl hphase rfl rfl rfl id

theorem outAdvance_inv {n : HWord} {s t : State} (hi : EngineInv s) (hp : s.eng.phase = .outData)
    (h : outAdvance n s = .next t) : EngineInv t := by
  obtain ⟨hn, u, hu, h⟩ := outAdvance_cases h
  have hcount : DnloadCount s := hi.outDataDnload hp
  rcases hu with ⟨-, hkey⟩ | ⟨rfl, -⟩
  · exact absurd hcount.1 hkey
  · rcases h with ⟨-, -, rfl⟩ | ⟨-, hb, h⟩
    · exact error_inv (s := s.addCall _) hi.memCanonical hi.bufferInSpace _
    · exact outNext_inv h hi.memCanonical hb hp (hcount.advance hn)

theorem execEventInDone_inv {ep : EpNum} {n : HWord} {s t : State} (hi : EngineInv s)
    (h : execEventInDone ep n s = .next t) : EngineInv t := by
  rcases execEventInDone_cases h with ⟨-, rfl⟩ | ⟨-, h⟩ | ⟨-, rfl⟩ | ⟨-, -, -, rfl⟩
  · exact hi.fatalTrap _
  · exact inAdvance_inv hi h
  · exact endTransfer_inv hi.memCanonical hi.bufferInSpace
  · exact error_inv hi.memCanonical hi.bufferInSpace _

theorem execEventOutDone_inv {ep : EpNum} {n : HWord} {s t : State} (hi : EngineInv s)
    (h : execEventOutDone ep n s = .next t) : EngineInv t := by
  rcases execEventOutDone_cases h with ⟨-, rfl⟩ | ⟨hp, h⟩ | ⟨-, rfl⟩ | ⟨-, -, rfl⟩
  · exact hi.fatalTrap _
  · exact outAdvance_inv hi hp h
  · exact endTransfer_inv hi.memCanonical hi.bufferInSpace
  · exact error_inv hi.memCanonical hi.bufferInSpace _

theorem execEventBusReset_inv {s t : State} (hm : Memory.wf s.mem = true) (h : execEventBusReset s = .next t) :
    EngineInv t := by
  cases h
  exact engineInv_iff.mpr ⟨hm, Nat.two_pow_pos _, List.getLast?_concat⟩

/-- Executing any instruction keeps the invariant. -/
theorem exec_inv {i : Instr} {s t : State} (hc : configOk s.cfg = true) (hi : EngineInv s) (h : exec i s = .next t) :
    EngineInv t := by
  cases i with
  | eventSetup recs =>
    obtain ⟨older, r, -, hrun⟩ := execEventSetup_runs h
    exact hrun.inv hc hi.memCanonical
  | eventInDone ep n => exact execEventInDone_inv hi h
  | eventOutDone ep n => exact execEventOutDone_inv hi h
  | eventBusReset => exact execEventBusReset_inv hi.memCanonical h
  | _ => exact (exec_request rfl h).inv hc hi.memCanonical

/-- Settles O9: a move of the outside leaves all that the invariant speaks of, and a delivery executes an instruction,
which ends in `error`, `ack`, the status stage or with the next packet armed. -/
theorem stepKeepsTheInvariant : Obligations.StepKeepsTheInvariant := by
  intro s t hi h
  obtain ⟨hc, -, huntouched | ⟨k, a, ts, e, -, -, hexec⟩⟩ := step_cases h
  · exact hi.untouched huntouched
  · exact exec_inv (s := s.takeEvent k a) hc (hi.takeEvent k a) hexec

/-- Settles O10: the phase is `WaitSetup`, and `ArmSetup` is the one command emitted. -/
theorem resetMeetsTheInvariant : Obligations.ResetMeetsTheInvariant :=
  engineInv_iff.mpr ⟨rfl, Nat.two_pow_pos _, rfl⟩

/-! ### The writers of memory, of the address and of the configuration -/

/-- Settles O42: `Effect`, which every meaning keeps to, has it as its clause about memory. -/
theorem engineWritesOnlyScratchAndReply : Obligations.EngineWritesOnlyScratchAndReply :=
  fun _ _ _ h => (exec_effect h).memory

/-- The device's address and its configuration number are as before. -/
structure IdentityKept (s t : State) : Prop where
  devAddr : t.eng.devAddr = s.eng.devAddr
  config : t.eng.config = s.eng.config

theorem IdentityKept.trans {s t u : State} (h : IdentityKept s t) (h' : IdentityKept t u) : IdentityKept s u :=
  ⟨h'.devAddr.trans h.devAddr, h'.config.trans h.config⟩

theorem error_identityKept (c : ErrorCause) (s : State) : IdentityKept s (error c s) := ⟨rfl, rfl⟩

theorem ack_identityKept (s : State) : IdentityKept s (ack s) := ⟨rfl, rfl⟩

theorem endTransfer_identityKept (s : State) : IdentityKept s (endTransfer s) := ⟨rfl, rfl⟩

theorem fatalTrap_identityKept (c : FatalCause) (s : State) : IdentityKept s (fatalTrap c s) := ⟨rfl, rfl⟩

theorem setXfer_identityKept (s : State) (x : Xfer) : IdentityKept s (s.setXfer x) := ⟨rfl, rfl⟩

theorem statusOut_identityKept (s : State) : IdentityKept s (statusOut s) := by rw [statusOut_eq]; exact ⟨rfl, rfl⟩

theorem armInNext_identityKept {s t : State} (h : armInNext s = .next t) : IdentityKept s t :=
  ⟨by rw [armInNext_eng h], by rw [armInNext_eng h]⟩

theorem armOut_identityKept {a k : Nat} {s t : State} (h : armOut a k s = .next t) : IdentityKept s t :=
  ⟨by rw [armOut_eng h], by rw [armOut_eng h]⟩

theorem send_identityKept {a : Nat} {dataLen requested : HWord} {s t : State} (h : send a dataLen requested s = .next t) :
    IdentityKept s t := by
  have hload : IdentityKept s (loadSend a (clampLength dataLen requested) s) := ⟨rfl, rfl⟩
  rcases send_cases h with ⟨-, -, rfl⟩ | h
  · exact hload.trans (statusOut_identityKept _)
  · exact hload.trans (armInNext_identityKept h)

/-- No ending of a request writes the address or the configuration. -/
theorem RequestEnds.identityKept {u t : State} (h : RequestEnds u t) : IdentityKept u t := by
  cases h with
  | erred c h => subst h; exact error_identityKept c u
  | acked h => subst h; exact ack_identityKept u
  | sent r hr dataLen requested h => exact send_identityKept h
  | replied bs requested h =>
    have hmem : IdentityKept u (u.setMem (Memory.writeBytes u.mem u.cfg.replyBase bs)) := ⟨rfl, rfl⟩
    exact hmem.trans (send_identityKept (reply_cases h))
  | received hkey hlen h =>
    obtain ⟨v, hv, rfl⟩ := recv_cases h
    have hphase : IdentityKept v (v.setPhase .outData) := ⟨rfl, rfl⟩
    exact ((setXfer_identityKept u _).trans (armOut_identityKept hv)).trans hphase

/-- A request that changes the address is SET_ADDRESS, one that changes the configuration is SET_CONFIGURATION. -/
theorem RequestRuns.writers {i : Instr} {s t : State} (h : RequestRuns i s t) :
    (t.eng.devAddr ≠ s.eng.devAddr → ∃ value index length, i = .setAddress value index length) ∧
      (t.eng.config ≠ s.eng.config → ∃ value index length, i = .setConfiguration value index length) := by
  obtain ⟨u, hbegun, hends⟩ := h
  have hkept := hends.identityKept
  rw [hkept.devAddr, hkept.config]
  exact ⟨hbegun.devAddr, hbegun.config⟩

theorem inNext_identityKept {s t : State} (h : inNext s = .next t) : IdentityKept s t := by
  rcases inNext_cases h with ⟨-, h⟩ | ⟨-, -, h⟩ | ⟨-, -, rfl⟩
  · exact armInNext_identityKept h
  · exact (setXfer_identityKept _ _).trans (armInNext_identityKept h)
  · exact statusOut_identityKept _

theorem inAdvance_identityKept {n : HWord} {s t : State} (h : inAdvance n s = .next t) : IdentityKept s t := by
  obtain ⟨-, -, h⟩ := inAdvance_cases h
  exact (setXfer_identityKept s _).trans (inNext_identityKept h)

theorem outNext_identityKept {s t : State} (h : outNext s = .next t) : IdentityKept s t := by
  rcases outNext_cases h with ⟨-, rfl⟩ | ⟨-, h⟩
  · exact ack_identityKept _
  · exact armOut_identityKept h

theorem outAdvance_identityKept {n : HWord} {s t : State} (h : outAdvance n s = .next t) : IdentityKept s t := by
  obtain ⟨-, u, hu, h⟩ := outAdvance_cases h
  have hsu : IdentityKept s u := by
    rcases hu with ⟨rfl, -⟩ | ⟨rfl, -⟩
    · exact ⟨rfl, rfl⟩
    · exact ⟨rfl, rfl⟩
  rcases h with ⟨-, -, rfl⟩ | ⟨-, -, h⟩
  · exact hsu.trans (error_identityKept _ u)
  · exact (hsu.trans (setXfer_identityKept u _)).trans (outNext_identityKept h)

theorem execEventInDone_identityKept {ep : EpNum} {n : HWord} {s t : State} (h : execEventInDone ep n s = .next t) :
    IdentityKept s t := by
  rcases execEventInDone_cases h with ⟨-, rfl⟩ | ⟨-, h⟩ | ⟨-, rfl⟩ | ⟨-, -, -, rfl⟩
  · exact fatalTrap_identityKept _ s
  · exact inAdvance_identityKept h
  · exact endTransfer_identityKept s
  · exact error_identityKept _ s

theorem execEventOutDone_identityKept {ep : EpNum} {n : HWord} {s t : State} (h : execEventOutDone ep n s = .next t) :
    IdentityKept s t := by
  rcases execEventOutDone_cases h with ⟨-, rfl⟩ | ⟨-, h⟩ | ⟨-, rfl⟩ | ⟨-, -, rfl⟩
  · exact fatalTrap_identityKept _ s
  · exact outAdvance_identityKept h
  · exact endTransfer_identityKept s
  · exact error_identityKept _ s

/-- A decoded SET_ADDRESS has the key 0x0500 (30_encoding.md rule R88). -/
theorem key_of_instr_setAddress {vc : Byte} {q : Req} {value index length : HWord}
    (h : q.instr vc = .setAddress value index length) : q.key = 0x0500#16 := by
  unfold Req.instr at h
  split at h
  case h_1 hk => exact (key_of_classify hk).symm
  all_goals cases h

/-- A decoded SET_CONFIGURATION has the key 0x0900 (rule R88). -/
theorem key_of_instr_setConfiguration {vc : Byte} {q : Req} {value index length : HWord}
    (h : q.instr vc = .setConfiguration value index length) : q.key = 0x0900#16 := by
  unfold Req.instr at h
  split at h
  case h_2 hk => exact (key_of_classify hk).symm
  all_goals cases h

/-- Settles O41: of what a request does only SET_ADDRESS and SET_CONFIGURATION write the two registers, a SETUP event runs
the request of its newest record, and a completion writes neither. -/
theorem addressAndConfigurationHaveOneWriterEach : Obligations.AddressAndConfigurationHaveOneWriterEach := by
  intro i s t h hreset
  cases i with
  | eventSetup recs =>
    obtain ⟨older, r, rfl, hrun⟩ := execEventSetup_runs h
    obtain ⟨hdevAddr, hconfig⟩ := hrun.writers
    constructor
    · intro hne
      obtain ⟨_, _, _, hinstr⟩ := hdevAddr hne
      exact .inr ⟨older, r, rfl, key_of_instr_setAddress hinstr⟩
    · intro hne
      obtain ⟨_, _, _, hinstr⟩ := hconfig hne
      exact .inr ⟨older, r, rfl, key_of_instr_setConfiguration hinstr⟩
  | eventInDone ep n =>
    have hkept := execEventInDone_identityKept h
    exact ⟨fun hne => absurd hkept.devAddr hne, fun hne => absurd hkept.config hne⟩
  | eventOutDone ep n =>
    have hkept := execEventOutDone_identityKept h
    exact ⟨fun hne => absurd hkept.devAddr hne, fun hne => absurd hkept.config hne⟩
  | eventBusReset => exact absurd rfl hreset
  | _ =>
    obtain ⟨hdevAddr, hconfig⟩ := (exec_request rfl h).writers
    exact ⟨fun hne => .inl (hdevAddr hne), fun hne => .inl (hconfig hne)⟩

end Sys2Proof.Machine
end

/-! ## Memory: the layout of the regions, staged IN packets, the pointer, and what the DMA of an OUT packet writes -/

section
namespace Sys2Proof.Machine

open Sys2Proof

/-! ### The layout of the regions (20_memory.md rule R50) -/

theorem regionPlaced_iff {c : Config} {r : Nat × Nat} :
    regionPlaced c r = true ↔ ¬ (2 ^ c.addrW ≤ r.1 ∨ 2 ^ c.addrW < r.1 + r.2 ∨ holdsAddress r 0) := by
  rw [regionPlaced, decide_eq_true_iff, addrLimit, holdsAddress]
  omega

/-- Two regions that are not apart share the larger of their first addresses. -/
theorem regionsApart_iff {r t : Nat × Nat} :
    regionsApart r t = true ↔ ∀ x, holdsAddress r x → ¬ holdsAddress t x := by
  simp only [regionsApart, holdsAddress, decide_eq_true_eq]
  constructor
  · intro h x hr ht
    omega
  · intro h
    have := h (max r.1 t.1)
    omega

theorem pairwiseApart_iff_pairwise {rs : List (Nat × Nat)} :
    pairwiseApart rs = true ↔ rs.Pairwise fun r t => regionsApart r t = true := by
  induction rs with
  | nil => simp [pairwiseApart]
  | cons r rs ih => simp [pairwiseApart, ih]

theorem pairwiseApart_iff {rs : List (Nat × Nat)} :
    pairwiseApart rs = true ↔ ¬ ∃ (i j x : Nat) (r t : Nat × Nat),
      i < j ∧ rs[i]? = some r ∧ rs[j]? = some t ∧ holdsAddress r x ∧ holdsAddress t x := by
  rw [pairwiseApart_iff_pairwise, List.pairwise_iff_getElem]
  constructor
  · rintro hapart ⟨i, j, x, r, t, hij, hr, ht, hrx, htx⟩
    obtain ⟨hi, rfl⟩ := List.getElem?_eq_some_iff.mp hr
    obtain ⟨hj, rfl⟩ := List.getElem?_eq_some_iff.mp ht
    exact regionsApart_iff.mp (hapart i j hi hj hij) x hrx htx
  · intro hshared i j hi hj hij
    exact regionsApart_iff.mpr fun x hrx htx =>
      hshared ⟨i, j, x, _, _, hij, List.getElem?_eq_getElem hi, List.getElem?_eq_getElem hj, hrx, htx⟩

/-- `ALIGN = 0` needs no clause of its own: the one multiple of 0 is 0, and `SCRATCH` may not begin there. -/
theorem align_pos_of_scratch_placed {c : Config} (hbase : c.scratchBase % c.align = 0)
    (hplaced : regionPlaced c (c.scratchBase, maxPacket) = true) : 0 < c.align := by
  by_contra halign
  rw [Nat.eq_zero_of_not_pos halign, Nat.mod_zero] at hbase
  exact regionPlaced_iff.mp hplaced (.inr (.inr (by simp [holdsAddress, hbase, maxPacket])))

/-- The check of the model is the rule. -/
theorem configOk_iff {c : Config} : configOk c = true ↔ ¬ LayoutBroken c := by
  simp only [configOk, isAligned, Bool.and_eq_true, decide_eq_true_eq, beq_iff_eq, List.all_eq_true]
  constructor
  · rintro ⟨⟨⟨⟨⟨-, hscratch⟩, hreply⟩, hrxbuf⟩, hplaced⟩, hapart⟩ (h | h | h | ⟨r, hr, h⟩ | h)
    · exact h hscratch
    · exact h hreply
    · exact h hrxbuf
    · exact regionPlaced_iff.mp (hplaced r hr) h
    · exact pairwiseApart_iff.mp hapart h
  · intro h
    simp only [LayoutBroken, not_or, not_not] at h
    obtain ⟨hscratch, hreply, hrxbuf, hplaced, hapart⟩ := h
    have hplaced : ∀ r ∈ regions c, regionPlaced c r = true := fun r hr =>
      regionPlaced_iff.mpr fun h => hplaced ⟨r, hr, h⟩
    have halign := align_pos_of_scratch_placed hscratch (hplaced _ (by simp [regions]))
    exact ⟨⟨⟨⟨⟨halign, hscratch⟩, hreply⟩, hrxbuf⟩, hplaced⟩, pairwiseApart_iff.mpr hapart⟩

theorem step_badConfiguration {s : State} (h : configOk s.cfg = false) : step s = .refused .badConfiguration := if_pos h

/-- Settles O7: the model's check `configOk` is the negation of the layout being broken. -/
theorem configurationsThatBreakTheLayoutAreRefused : Obligations.ConfigurationsThatBreakTheLayoutAreRefused := by
  refine fun s => ⟨fun hb => step_badConfiguration ?_, configOk_iff.mpr⟩
  exact Bool.eq_false_iff.mpr fun hok => configOk_iff.mp hok hb

/-! ### Staged IN packets (rule R55) -/

/-- Settles O44: `Effect`, which every meaning keeps to, says of each added command that it hands over an aligned buffer. -/
theorem noUnalignedInBufferIsArmed : Obligations.NoUnalignedInBufferIsArmed := by
  intro i s t hc hstage h
  obtain ⟨cs, hcs, -, -, haligned⟩ := (exec_effect h).commands
  exact ⟨cs, hcs, fun a k hmem => haligned hc hstage _ hmem⟩

/-! ### The bytes of an OUT packet (rules R59, R60) -/

theorem sameOutsideRange_writeBytes (m : Memory) (a : Nat) (bs : List Byte) :
    SameOutsideRange m (Memory.writeBytes m a bs) a bs.length :=
  fun _ hb => Memory.read_writeBytes_outside m a bs hb

theorem step_raise {s : State} {e : Event} {dma : List Byte} {ts : List Turn} (hc : configOk s.cfg = true)
    (hfatal : s.eng.fatal = false) (ha : s.agenda = .raise e dma :: ts) : step s = raiseEvent e dma s.takeTurn := by
  simp [step, hc, hfatal, ha]

section Deposit

variable {s : State} {dma : List Byte} {a k : Nat}

/-- The completion of an OUT packet finds its bytes in the armed buffer. -/
theorem raiseEvent_outDone_armed (n : HWord) (hp : s.port.outArmed = some ⟨some a, k⟩) (hl : dma.length ≤ k)
    (hfit : a + dma.length ≤ addrLimit s.cfg) :
    raiseEvent (.outDone 0#4 n) dma s = .next (((s.setMem (Memory.writeBytes s.mem a dma)).setPort
      { s.port with outArmed := none }).addPending (.outDone 0#4 n)) := by
  simp [raiseEvent, dmaInWindow_armed hp hl hfit]

/-- A SETUP packet or a bus reset that cancels an OUT packet leaves in its buffer what the DMA has written. -/
theorem raiseEvent_cancels_armed {e : Event} (he : e = .busReset ∨ ∃ recs, e = .setup recs)
    (hp : s.port.outArmed = some ⟨some a, k⟩) (hl : dma.length ≤ k) (hfit : a + dma.length ≤ addrLimit s.cfg) :
    raiseEvent e dma s = .next (((s.setMem (Memory.writeBytes s.mem a dma)).setPort
      ⟨false, none, none, false, false, if e = .busReset then 0#7 else s.port.address⟩).addPending e) := by
  rcases he with rfl | ⟨recs, rfl⟩
  · simp [raiseEvent, dmaInWindow_armed hp hl hfit, Transport.cleared]
  · simp [raiseEvent, dmaInWindow_armed hp hl hfit, Transport.setupArrived]

end Deposit

/-- Settles O48: the turn writes its bytes at the armed address, and the canonical form of memory gives them back. -/
theorem completedOutPacketStandsInItsBuffer : Obligations.CompletedOutPacketStandsInItsBuffer := by
  intro s n dma ts a hc hfatal hw ha hp hfit
  rw [step_raise hc hfatal ha, raiseEvent_outDone_armed n (s := s.takeTurn) hp le_rfl hfit]
  exact ⟨_, rfl, Memory.readBytes_writeBytes hw a dma, sameOutsideRange_writeBytes s.mem a dma, rfl, rfl, rfl⟩

/-- Settles O49: as O48, with the transport cleared by the event that cancels the packet. -/
theorem cancelledOutPacketWritesOnlyItsBuffer : Obligations.CancelledOutPacketWritesOnlyItsBuffer := by
  intro s e dma ts a k hc hfatal hw ha he hp hl hfit
  have hfit' : a + dma.length ≤ addrLimit s.cfg := le_trans (by omega) hfit
  rw [step_raise hc hfatal ha, raiseEvent_cancels_armed (s := s.takeTurn) he hp hl hfit']
  refine ⟨_, rfl, Memory.readBytes_writeBytes hw a dma, sameOutsideRange_writeBytes s.mem a dma, ?_⟩
  simp [State.takeTurn, State.setMem, State.setPort, State.addPending, ha]

/-! ### The advance of the pointer (rule R62) -/

/-- The only fault of a memory read. -/
theorem memRead_error {s : State} {a n : Nat} {e : Fault} (h : memRead s a n = .error e) : e = .addrRange := by
  unfold memRead at h
  split at h
  · cases h
  · cases h; rfl

/-- The only fault of the forwarding of a DNLOAD packet. -/
theorem forwardDnload_error {s : State} {e : Fault} (h : forwardDnload s = .error e) : e = .addrRange := by
  unfold forwardDnload at h
  split at h
  · cases h
  · next hr => cases h; exact memRead_error hr

section Outside

variable {n : HWord} {s : State}

theorem advance_outside (hb : addrLimit s.cfg ≤ s.eng.xfer.buffer + n.toNat) : advance n s = .error .addrRange :=
  if_neg (Nat.not_lt.mpr hb)

theorem inAdvance_outside (hn : n.toNat ≤ armedLength s.eng.xfer.remaining)
    (hb : addrLimit s.cfg ≤ s.eng.xfer.buffer + n.toNat) : inAdvance n s = .fault .addrRange := by
  simp [inAdvance, Nat.not_lt.mpr hn, advance_outside hb]

/-- A DNLOAD packet whose own bytes leave the space faults when they are read, any other when the pointer advances. -/
theorem outAdvance_outside (hn : n.toNat ≤ armedLength s.eng.xfer.remaining)
    (hb : addrLimit s.cfg ≤ s.eng.xfer.buffer + n.toNat) (hd : s.answers.download = true) :
    outAdvance n s = .fault .addrRange := by
  unfold outAdvance
  rw [if_neg (Nat.not_lt.mpr hn)]
  split
  · cases hf : forwardDnload s with
    | error e => rw [forwardDnload_error hf, orFault_error]
    | ok t =>
      obtain rfl := forwardDnload_ok hf
      rw [orFault_ok, State.addCall_answers, if_pos hd, advance_outside (s := s.addCall _) hb, orFault_error]
  · rw [advance_outside hb, orFault_error]

end Outside

/-- Settles O19: in the phases of a data stage a completion of endpoint 0 advances the pointer. -/
theorem pointerAdvanceOutOfTheSpaceFaults : Obligations.PointerAdvanceOutOfTheSpaceFaults := by
  refine fun n s hn hb => ⟨fun hp => ?_, fun hp hd => ?_⟩
  · have hrun : exec (.eventInDone 0#4 n) s = inAdvance n s := by
      rcases hp with hp | hp <;> simp [exec, execEventInDone, hp]
    rw [hrun, inAdvance_outside hn hb]
  · have hrun : exec (.eventOutDone 0#4 n) s = outAdvance n s := by simp [exec, execEventOutDone, hp]
    rw [hrun, outAdvance_outside hn hb hd]

end Sys2Proof.Machine
end

/-! ## Encodings: decoding and encoding agree, a SETUP event runs its newest record, unknown keys stall -/

section
namespace Sys2Proof

/-! ### The instruction of each of the fourteen requests (30_encoding.md rules R88, R89) -/

/-- The instruction of a request of kind `k` with the given operands. -/
def RequestKind.instr (value index length : HWord) : RequestKind → Instr
  | .setAddress => .setAddress value index length
  | .setConfiguration => .setConfiguration value index length
  | .getConfiguration => .getConfiguration value index length
  | .getStatusDevice => .getStatusDevice value index length
  | .getStatusEndpoint => .getStatusEndpoint value index length
  | .clearFeatureEndpoint => .clearFeatureEndpoint value index length
  | .setFeatureEndpoint => .setFeatureEndpoint value index length
  | .getDescriptor => .getDescriptor value index length
  | .msOsDescriptor => .msOsDescriptor value index length
  | .dfuDnload => .dfuDnload value index length
  | .dfuGetstatus => .dfuGetstatus value index length
  | .dfuClrstatus => .dfuClrstatus value index length
  | .dfuGetstate => .dfuGetstate value index length
  | .dfuAbort => .dfuAbort value index length

theorem RequestKind.mem_all (k : RequestKind) : k ∈ RequestKind.all := by cases k <;> decide

section RequestInstr

variable (vc : Byte) (k : RequestKind) (value index length : HWord)

@[simp] theorem wf_requestInstr : (k.instr value index length).wf vc = true := by cases k <;> rfl

@[simp] theorem format_requestInstr : (k.instr value index length).format = .setup := by cases k <;> rfl

@[simp] theorem encode_requestInstr :
    encode vc (k.instr value index length) = requestBytes (k.key vc) value index length := by cases k <;> rfl

end RequestInstr

theorem classify_eq_none_iff {vc : Byte} {key : HWord} : classify vc key = none ↔ ∀ k : RequestKind, k.key vc ≠ key := by
  simp [classify, RequestKind.mem_all]

theorem isUnknownKey_iff {vc : Byte} {key : HWord} : isUnknownKey vc key = true ↔ classify vc key = none :=
  Option.isNone_iff_eq_none

theorem instr_of_classify {vc : Byte} {q : Req} {k : RequestKind} (h : classify vc q.key = some k) :
    q.instr vc = k.instr q.value q.index q.length := by
  unfold Req.instr
  rw [h]
  cases k <;> rfl

theorem instr_of_unknown {vc : Byte} {q : Req} (h : classify vc q.key = none) :
    q.instr vc = .unknownKey q.key q.value q.index q.length := by
  unfold Req.instr
  rw [h]

/-- What the decoder can give for a request (rules R89, R90): the one of the fourteen whose key it has, or an unknown key. -/
theorem instr_cases (vc : Byte) (q : Req) :
    (∃ k : RequestKind, k.key vc = q.key ∧ q.instr vc = k.instr q.value q.index q.length) ∨
    (isUnknownKey vc q.key = true ∧ q.instr vc = .unknownKey q.key q.value q.index q.length) := by
  cases h : classify vc q.key with
  | some k => exact .inl ⟨k, key_of_classify h, instr_of_classify h⟩
  | none => exact .inr ⟨isUnknownKey_iff.mpr h, instr_of_unknown h⟩

/-! ### Encoding what was decoded -/

theorem wf_instr (vc : Byte) (q : Req) : (q.instr vc).wf vc = true := by
  rcases instr_cases vc q with ⟨k, -, h⟩ | ⟨hunknown, h⟩
  · rw [h, wf_requestInstr]
  · rw [h]; exact hunknown

theorem format_instr (vc : Byte) (q : Req) : (q.instr vc).format = .setup := by
  rcases instr_cases vc q with ⟨k, -, h⟩ | ⟨-, h⟩
  · rw [h, format_requestInstr]
  · rw [h]; rfl

theorem encode_instr (vc : Byte) (q : Req) : encode vc (q.instr vc) = q.record.bytes := by
  rcases instr_cases vc q with ⟨k, hkey, h⟩ | ⟨-, h⟩
  · rw [h, encode_requestInstr, hkey]; rfl
  · rw [h]; rfl

/-! ### Decoding what was encoded -/

/-- The bytes of a request decode to the instruction of its key. -/
theorem decode_requestBytes (vc : Byte) (key value index length : HWord) (rest : List Byte) :
    decode vc .setup (requestBytes key value index length ++ rest) =
      .ok (Req.instr vc ⟨key, value, index, length⟩, rest) := by
  simp only [decode, requestBytes, takeRecord_bytes, decodeRecord, Req.req_record]

theorem decode_encode_request (vc : Byte) (k : RequestKind) (value index length : HWord) (rest : List Byte) :
    decode vc .setup (encode vc (k.instr value index length) ++ rest) = .ok (k.instr value index length, rest) := by
  rw [encode_requestInstr, decode_requestBytes, instr_of_classify (classify_key vc k)]

theorem decode_encode_unknownKey {vc : Byte} {key : HWord} (h : isUnknownKey vc key = true) (value index length : HWord)
    (rest : List Byte) :
    decode vc .setup (encode vc (.unknownKey key value index length) ++ rest) =
      .ok (.unknownKey key value index length, rest) := by
  rw [encode, decode_requestBytes, instr_of_unknown (isUnknownKey_iff.mp h)]

/-- The count byte of a SETUP event of 1 to 3 records says how many records follow (rule R81, log entry 7). -/
theorem recordCount_toNat {recs : List Record} (h : recordCountOk recs = true) :
    (BitVec.ofNat 8 (recs.length - 1)).toNat < 3 ∧ (BitVec.ofNat 8 (recs.length - 1)).toNat + 1 = recs.length := by
  simp only [recordCountOk, decide_eq_true_eq] at h
  rw [BitVec.toNat_ofNat]
  omega

theorem decode_encode_eventSetup (vc : Byte) {recs : List Record} (h : recordCountOk recs = true) (rest : List Byte) :
    decode vc .event (encode vc (.eventSetup recs) ++ rest) = .ok (.eventSetup recs, rest) := by
  obtain ⟨hlt, hcount⟩ := recordCount_toNat h
  simp only [decode, encode, List.cons_append, decodeEvent, if_true, decodeSetupEvent, if_pos hlt, hcount,
    takeRecords_bytes]

/-- The operands of a completion: the byte of an endpoint number is below 16 (rule R84). -/
theorem decodeCompletion_bytes (mk : EpNum → HWord → Instr) (ep : EpNum) (n : HWord) (rest : List Byte) :
    decodeCompletion mk (ep.setWidth 8 :: loByte n :: hiByte n :: rest) = .ok (mk ep n, rest) := by
  have hep : (ep.setWidth 8).toNat < 16 := by
    rw [BitVec.toNat_setWidth_of_le (by decide)]
    exact ep.isLt
  have hback : (ep.setWidth 8).setWidth 4 = ep := BitVec.setWidth_setWidth_of_le ep (by decide)
  rw [decodeCompletion, if_pos hep, hback, le16_loByte_hiByte]

theorem decode_encode_eventInDone (vc : Byte) (ep : EpNum) (n : HWord) (rest : List Byte) :
    decode vc .event (encode vc (.eventInDone ep n) ++ rest) = .ok (.eventInDone ep n, rest) :=
  decodeCompletion_bytes .eventInDone ep n rest

theorem decode_encode_eventOutDone (vc : Byte) (ep : EpNum) (n : HWord) (rest : List Byte) :
    decode vc .event (encode vc (.eventOutDone ep n) ++ rest) = .ok (.eventOutDone ep n, rest) :=
  decodeCompletion_bytes .eventOutDone ep n rest

/-! ### The obligations of 30_encoding.md about the decoder -/

/-- Settles O3: the bytes of a request give its key back, which selects its own instruction; those of an event its code and
its operands. -/
theorem decodeOfEncodeGivesTheInstructionBack : Obligations.DecodeOfEncodeGivesTheInstructionBack := by
  intro vc i rest hwf
  cases i with
  | setAddress => exact decode_encode_request vc .setAddress _ _ _ rest
  | setConfiguration => exact decode_encode_request vc .setConfiguration _ _ _ rest
  | getConfiguration => exact decode_encode_request vc .getConfiguration _ _ _ rest
  | getStatusDevice => exact decode_encode_request vc .getStatusDevice _ _ _ rest
  | getStatusEndpoint => exact decode_encode_request vc .getStatusEndpoint _ _ _ rest
  | clearFeatureEndpoint => exact decode_encode_request vc .clearFeatureEndpoint _ _ _ rest
  | setFeatureEndpoint => exact decode_encode_request vc .setFeatureEndpoint _ _ _ rest
  | getDescriptor => exact decode_encode_request vc .getDescriptor _ _ _ rest
  | msOsDescriptor => exact decode_encode_request vc .msOsDescriptor _ _ _ rest
  | dfuDnload => exact decode_encode_request vc .dfuDnload _ _ _ rest
  | dfuGetstatus => exact decode_encode_request vc .dfuGetstatus _ _ _ rest
  | dfuClrstatus => exact decode_encode_request vc .dfuClrstatus _ _ _ rest
  | dfuGetstate => exact decode_encode_request vc .dfuGetstate _ _ _ rest
  | dfuAbort => exact decode_encode_request vc .dfuAbort _ _ _ rest
  | unknownKey => exact decode_encode_unknownKey hwf _ _ _ rest
  | eventSetup recs => exact decode_encode_eventSetup vc hwf rest
  | eventInDone ep n => exact decode_encode_eventInDone vc ep n rest
  | eventOutDone ep n => exact decode_encode_eventOutDone vc ep n rest
  | eventBusReset => rfl

/-- Settles O4: a record is the record of the request it decodes to, and the instruction of a request encodes to that. -/
theorem everyRecordHasOneMeaning : Obligations.EveryRecordHasOneMeaning := by
  intro vc r
  refine ⟨wf_instr vc r.req, format_instr vc r.req, ?_⟩
  rw [decodeRecord, encode_instr, Record.record_req]

/-- Settles O2: the decoder evaluated on each vector. -/
theorem wordsOfTheSpecDecodeAsItSays : Obligations.WordsOfTheSpecDecodeAsItSays :=
  ⟨rfl, rfl, rfl, rfl, rfl, rfl, rfl, rfl, rfl, rfl, rfl, rfl, rfl⟩

end Sys2Proof

namespace Sys2Proof.Machine

open Sys2Proof

/-! ### A SETUP event runs its newest record (30_encoding.md rule R81, 40_control_state_machine.md rule R111) -/

theorem newestRecord_append {older : List Record} (h : older.length ≤ 2) (r : Record) :
    newestRecord (older ++ [r]) = some r := by
  match older, h with
  | [], _ => rfl
  | [_], _ => rfl
  | [_, _], _ => rfl

/-- More than three records have no newest one: such an event cannot be formed. -/
theorem newestRecord_eq_none {recs : List Record} (h : 3 < recs.length) : newestRecord recs = none := by
  match recs, h with
  | _ :: _ :: _ :: _ :: _, _ => rfl

theorem exec_eventSetup_of_newest {recs : List Record} {r : Record} (h : newestRecord recs = some r) (s : State) :
    exec (.eventSetup recs) s = exec (decodeRecord s.cfg.msftVendorCode r) s := by
  rw [exec, execEventSetup, h]
  exact dispatch_eq_exec r.req s

theorem exec_eventSetup_malformed {recs : List Record} (h : newestRecord recs = none) (s : State) :
    exec (.eventSetup recs) s = .refused .malformedEvent := by
  rw [exec, execEventSetup, h]

/-- Settles O6: the newest record is the last of at most three, and there is none otherwise. -/
theorem setupEventRunsItsNewestRecord : Obligations.SetupEventRunsItsNewestRecord := by
  intro older r s
  refine ⟨fun h => exec_eventSetup_of_newest (newestRecord_append h r) s, fun h => ?_, exec_eventSetup_malformed rfl s⟩
  refine exec_eventSetup_malformed (newestRecord_eq_none ?_) s
  rw [List.length_append, List.length_singleton]
  omega

/-! ### Unknown keys (30_encoding.md rule R90) -/

/-- A SETUP step whose first lines are followed by `error`. -/
theorem error_beginSetup (c : ErrorCause) (q : Req) (s : State) : error c (beginSetup q s) = s.requestStalled q := by
  rw [error_eq, beginSetup_eq]
  rfl

theorem exec_unknownKey (key value index length : HWord) (s : State) :
    exec (.unknownKey key value index length) s = .next (s.requestStalled ⟨key, value, index, length⟩) :=
  congrArg Host.Outcome.next (error_beginSetup .unknownKey ⟨key, value, index, length⟩ s)

/-- Settles O29: a key that is none of the fourteen decodes to the unknown-key instruction, which is `error` after the
beginning of the SETUP step. -/
theorem unknownKeysStall : Obligations.UnknownKeysStall := by
  refine fun s => ⟨fun key value index length => exec_unknownKey key value index length s, fun r hr => ?_⟩
  rw [exec_eventSetup_of_newest (r := r) rfl, decodeRecord, instr_of_unknown (classify_eq_none_iff.mpr hr)]
  exact exec_unknownKey _ _ _ _ s

/-! ### Commands (30_encoding.md rule R85) -/

/-- Settles O43: `Effect`, which every meaning keeps to, says of each added command that it is well formed. -/
theorem noPacketAboveTheMaximumIsArmed : Obligations.NoPacketAboveTheMaximumIsArmed := by
  intro i s t h
  obtain ⟨cs, hcs, -, hwf, -⟩ := (exec_effect h).commands
  exact ⟨cs, hcs, hwf⟩

end Sys2Proof.Machine
end

/-! ## The control state machine: the exception path, the completions of endpoint 0, `send` under every reading -/

section
namespace Sys2Proof.Machine

open Sys2Proof

/-! ### The delivery of an event (40_control_state_machine.md rule R110) -/

/-- A delivery takes the turn from the agenda and the event from the pending list, and executes its instruction. -/
theorem step_deliver {s : State} {k : Nat} {a : Answers} {ts : List Turn} {e : Event} (hc : configOk s.cfg = true)
    (hf : s.eng.fatal = false) (ha : s.agenda = .deliver k a :: ts) (he : s.pending[k]? = some e) :
    step s = exec e.instr (s.takeEvent k a) := by
  simp [step, hc, hf, ha, he]

theorem step_fatal {s : State} (hc : configOk s.cfg = true) (hf : s.eng.fatal = true) : step s = .fault .fatalHalt := by
  simp [step, hc, hf]

/-- Settles O5: around the execution a delivery is `takeEvent` alone. -/
theorem stepRunsTheDeliveredEvent : Obligations.StepRunsTheDeliveredEvent := by
  refine fun s hc => ⟨step_fatal hc, fun k a ts e hf ha he => ?_⟩
  rw [step_deliver hc hf ha he, State.takeEvent, ha, List.tail_cons]

/-! ### The exception path (rules R114, R122) -/

/-- Settles O13: the three commands of `error` in their order, and what the transport does at each. -/
theorem errorStallsBothHalvesAndRearmsSetup : Obligations.ErrorStallsBothHalvesAndRearmsSetup := error_eq

/-- Settles O12: a second `error` finds the phase and the transport as it would leave them, so it adds its commands only. -/
theorem twoErrorsLeaveTheStateOfOne : Obligations.TwoErrorsLeaveTheStateOfOne := by
  intro c c' s
  have hone := errorStallsBothHalvesAndRearmsSetup c s
  refine ⟨?_, by rw [hone], by rw [hone]; rfl⟩
  rw [errorStallsBothHalvesAndRearmsSetup c' (error c s), hone, List.append_assoc]
  rfl

/-! ### What a completion of endpoint 0 executes, phase by phase (rules R116 to R119) -/

section Completions

variable {n : HWord} {s t : State}

theorem exec_inDone_data (hp : s.eng.phase = .inData ∨ s.eng.phase = .lastInData) :
    exec (.eventInDone 0#4 n) s = inAdvance n s := by
  rcases hp with hp | hp <;> simp [exec, execEventInDone, hp]

theorem exec_outDone_data (hp : s.eng.phase = .outData) : exec (.eventOutDone 0#4 n) s = outAdvance n s := by
  simp [exec, execEventOutDone, hp]

theorem exec_inDone_status (hp : s.eng.phase = .waitStatusIn) :
    exec (.eventInDone 0#4 n) s = .next (endTransfer s) := by
  simp [exec, execEventInDone, hp]

theorem exec_outDone_status (hp : s.eng.phase = .waitStatusOut) :
    exec (.eventOutDone 0#4 n) s = .next (endTransfer s) := by
  simp [exec, execEventOutDone, hp]

theorem exec_inDone_violation (hdata : s.eng.phase ≠ .inData) (hlast : s.eng.phase ≠ .lastInData)
    (hstatus : s.eng.phase ≠ .waitStatusIn) : exec (.eventInDone 0#4 n) s = .next (error .inBadPhase s) := by
  cases hp : s.eng.phase with
  | inData => exact absurd hp hdata
  | lastInData => exact absurd hp hlast
  | waitStatusIn => exact absurd hp hstatus
  | _ => simp [exec, execEventInDone, hp]

theorem exec_outDone_violation (hdata : s.eng.phase ≠ .outData) (hstatus : s.eng.phase ≠ .waitStatusOut) :
    exec (.eventOutDone 0#4 n) s = .next (error .outBadPhase s) := by
  cases hp : s.eng.phase with
  | outData => exact absurd hp hdata
  | waitStatusOut => exact absurd hp hstatus
  | _ => simp [exec, execEventOutDone, hp]

/-! ### The transition table (rule R120) -/

theorem inNext_phase (h : inNext s = .next t) : t.eng.fatal = s.eng.fatal ∧
    t.eng.phase = if s.eng.xfer.remaining = 0#16 ∧ s.eng.xfer.zlp = false then .waitStatusOut
      else phaseForRemaining s.eng.xfer.remaining := by
  rcases inNext_cases h with ⟨hr, h⟩ | ⟨hr, hz, h⟩ | ⟨hr, hz, rfl⟩
  · simp [armInNext_eng h, hr]
  · simp [armInNext_eng h, hz]
  · simp [statusOut_eq, hr, hz]

theorem inAdvance_phase (h : inAdvance n s = .next t) : t.eng.fatal = s.eng.fatal ∧
    t.eng.phase = if s.eng.xfer.remaining = n ∧ s.eng.xfer.zlp = false then .waitStatusOut
      else phaseForRemaining (s.eng.xfer.remaining - n) := by
  obtain ⟨-, -, h⟩ := inAdvance_cases h
  simpa only [State.setXfer_eng, sub_eq_zero_iff] using inNext_phase h

theorem outNext_phase (h : outNext s = .next t) : t.eng.fatal = s.eng.fatal ∧
    t.eng.phase = if s.eng.xfer.remaining = 0#16 then .waitStatusIn else s.eng.phase := by
  rcases outNext_cases h with ⟨hr, rfl⟩ | ⟨hr, h⟩
  · simp [ack_eq, hr]
  · simp [armOut_eng h, hr]

/-- An OUT packet ends in `error` exactly when it is a DNLOAD packet that the Firmware-Update Engine rejects. -/
theorem outAdvance_phase (h : outAdvance n s = .next t) : t.eng.fatal = s.eng.fatal ∧
    t.eng.phase = if s.eng.req.key = 0x0121#16 ∧ s.answers.download = false then .waitSetup
      else if s.eng.xfer.remaining = n then .waitStatusIn else s.eng.phase := by
  obtain ⟨-, u, hu, h⟩ := outAdvance_cases h
  have heng : u.eng = s.eng := by rcases hu with ⟨rfl, -⟩ | ⟨rfl, -⟩ <;> rfl
  rcases h with ⟨hk, hd, rfl⟩ | ⟨hd, -, h⟩
  · simp [error_eq, heng, hk, hd]
  · have hno : ¬ (s.eng.req.key = 0x0121#16 ∧ s.answers.download = false) := fun ⟨hk, hd'⟩ => by simp [hd hk] at hd'
    simpa only [if_neg hno, State.setXfer_eng, heng, sub_eq_zero_iff] using outNext_phase h

end Completions

/-- Settles O16: a status stage ends with `ArmSetup`. -/
theorem statusCompletionRearmsSetup : Obligations.StatusCompletionRearmsSetup :=
  fun _ _ => ⟨exec_inDone_status, exec_outDone_status⟩

/-- Settles O17: every phase but the named ones is a row of `error` in the tables of R116 and R118. -/
theorem completionInAWrongPhaseStalls : Obligations.CompletionInAWrongPhaseStalls := by
  refine fun n s => ⟨fun ⟨hdata, hlast, hstatus⟩ => ?_, fun ⟨hdata, hstatus⟩ => ?_⟩
  · rw [exec_inDone_violation hdata hlast hstatus, error_eq]
  · rw [exec_outDone_violation hdata hstatus, error_eq]

/-- A completion outside the data stage of its direction ends the status stage or stalls. -/
theorem inDone_phase_other {n : HWord} {s t : State} (hdata : s.eng.phase ≠ .inData) (hlast : s.eng.phase ≠ .lastInData)
    (h : exec (.eventInDone 0#4 n) s = .next t) : t.eng = { s.eng with phase := .waitSetup } := by
  by_cases hp : s.eng.phase = .waitStatusIn
  · rw [exec_inDone_status hp] at h; cases h; rfl
  · rw [exec_inDone_violation hdata hlast hp] at h; cases h; rfl

theorem outDone_phase_other {n : HWord} {s t : State} (hdata : s.eng.phase ≠ .outData)
    (h : exec (.eventOutDone 0#4 n) s = .next t) : t.eng = { s.eng with phase := .waitSetup } := by
  by_cases hp : s.eng.phase = .waitStatusOut
  · rw [exec_outDone_status hp] at h; cases h; rfl
  · rw [exec_outDone_violation hdata hp] at h; cases h; rfl

/-- Settles O24: in a data stage the table is that of `in_advance` and `out_advance`; every other row ends in `WaitSetup`. -/
theorem completionsMoveThePhaseAsTheTableSays : Obligations.CompletionsMoveThePhaseAsTheTableSays := by
  refine fun n s t => ⟨fun h => ?_, fun h => ?_, fun h => ?_⟩
  · by_cases hp : s.eng.phase = .inData ∨ s.eng.phase = .lastInData
    · rw [exec_inDone_data hp] at h
      obtain ⟨hfatal, hphase⟩ := inAdvance_phase h
      refine ⟨hfatal, fun _ => ⟨fun hfull => ?_, fun hshort hmore => ?_, fun hr hz => ?_⟩, fun hdata hlast => absurd hp (not_or.mpr ⟨hdata, hlast⟩)⟩
      · have hne : s.eng.xfer.remaining ≠ n := fun hr => by simp [hr] at hfull
        rw [hphase, if_neg (fun hdone => hne hdone.1), phaseForRemaining_full hfull]
      · rw [hphase, if_neg (by simpa [imp_iff_not_or] using hmore), phaseForRemaining_short hshort]
      · rw [hphase, if_pos ⟨hr, hz⟩]
    · obtain ⟨hdata, hlast⟩ := not_or.mp hp
      have heng := inDone_phase_other hdata hlast h
      exact ⟨by rw [heng], fun hp' => absurd hp' hp, fun _ _ => by rw [heng]⟩
  · by_cases hp : s.eng.phase = .outData
    · rw [exec_outDone_data hp] at h
      obtain ⟨hfatal, hphase⟩ := outAdvance_phase h
      refine ⟨hfatal, fun _ hanswer => ?_, fun _ hk hd => ?_, fun hne => absurd hp hne⟩
      · rw [hphase, if_neg (by simpa using hanswer), hp]
      · rw [hphase, if_pos ⟨hk, hd⟩]
    · have heng := outDone_phase_other hp h
      exact ⟨by rw [heng], fun hp' => absurd hp' hp, fun hp' => absurd hp' hp, fun _ => by rw [heng]⟩
  · cases h; rfl

/-! ### `send` and the later packets under the other readings (93_implementation_defined.md U2, U5) -/

section Readings

variable {a : Nat} {dataLen requested : HWord} {s : State}

/-- An empty reply goes straight to the status stage (U2). -/
theorem send_straight (hz : s.cfg.zeroLenSend = .straightToStatus) (hcut : clampLength dataLen requested = 0#16) :
    send a dataLen requested s = .next { s.emitted (statusOutCommands s.cfg.statusOutArm) with
      eng := { s.eng with phase := .waitStatusOut, xfer := ⟨a, 0#16, false⟩ }
      sendLen := 0#16 } := by
  rw [send, if_pos ⟨hz, hcut⟩, statusOut_eq, hcut]
  rfl

theorem send_nonempty (hcut : clampLength dataLen requested ≠ 0#16) :
    send a dataLen requested s = armInNext (loadSend a (clampLength dataLen requested) s) :=
  if_neg fun h => hcut h.2

/-- A packet of a transfer that is not staged is armed where it lies (U5). -/
theorem armInNext_unstaged (hr : s.eng.xfer.remaining ≠ 0#16) (hst : stagesTransfer s.cfg s.sendLen = false) :
    armInNext s = .next { s.emitted [.armIn (some s.eng.xfer.buffer) (min s.eng.xfer.remaining.toNat 64)] with
      eng := { s.eng with phase := phaseForRemaining s.eng.xfer.remaining } } := by
  rw [armInNext_some hr]
  exact armIn_unstaged hst

/-- The deferred empty packet of a transfer of at most one packet (40_control_state_machine.md rule R112). -/
theorem zlpFlag_short {len : HWord} (hlo : 1 ≤ len.toNat) (hhi : len.toNat ≤ 64) : zlpFlag len = decide (len.toNat = 64) :=
  decide_eq_decide.mpr (by simp only [maxPacket]; omega)

theorem zlpFlag_long {len : HWord} (h : 64 < len.toNat) : zlpFlag len = decide (len.toNat % 64 = 0) :=
  decide_eq_decide.mpr (by simp only [maxPacket]; omega)

theorem send_unstaged (hst : s.cfg.stageLongUnaligned = false) (hlong : 64 < (clampLength dataLen requested).toNat) :
    send a dataLen requested s = .next { s.emitted [.armIn (some a) 64] with
      eng := { s.eng with
        phase := .inData
        xfer := ⟨a, clampLength dataLen requested, decide ((clampLength dataLen requested).toNat % 64 = 0)⟩ }
      sendLen := clampLength dataLen requested } := by
  have hne : clampLength dataLen requested ≠ 0#16 := (BitVec.ne_of_lt (Nat.zero_lt_of_lt hlong)).symm
  rw [send_nonempty hne, ← zlpFlag_long hlong,
    armInNext_unstaged (s := loadSend a (clampLength dataLen requested) s) hne (stagesTransfer_long hst hlong)]
  simp only [loadSend, State.setSendLen_eng, State.setXfer_eng, phaseForRemaining_full hlong.le, Nat.min_eq_right hlong.le]
  rfl

/-- The IN completion of a packet that is not the last (41_data_stage_chunking.md rules R141 to R143). -/
theorem exec_inDone_more {n rem : HWord} (hp : s.eng.phase = .inData ∨ s.eng.phase = .lastInData)
    (hn : n.toNat ≤ min s.eng.xfer.remaining.toNat 64) (hrem : rem = s.eng.xfer.remaining - n) (hne : rem ≠ 0#16)
    (ha : a = s.eng.xfer.buffer + n.toNat) (hlim : a < 2 ^ s.cfg.addrW) :
    exec (.eventInDone 0#4 n) s = armInNext (s.setXfer ⟨a, rem, s.eng.xfer.zlp⟩) := by
  subst hrem ha
  rw [exec_inDone_data hp, inAdvance_eq hn hlim, inNext_more hne]

end Readings

/-- Settles O37: the two tests of the readings, in `send` and where a packet is staged. -/
theorem sendUnderTheOtherReadings : Obligations.SendUnderTheOtherReadings := by
  constructor
  · intro a len requested cut s hcut
    obtain rfl : cut = clampLength len requested := BitVec.eq_of_toNat_eq (by rw [hcut, clampLength_toNat])
    refine ⟨send_straight, send_unstaged, fun hst hlo hhi hw hc hfit => ?_⟩
    rw [← zlpFlag_short hlo hhi]
    refine send_armed hw hc (stagesTransfer_short hhi) (.inr (BitVec.ne_of_lt hlo).symm) ?_
    rwa [← hcut, Nat.min_eq_left hhi]
  · intro n rem a s hst hp hn hrem hne ha hlim
    rw [exec_inDone_more hp hn hrem hne ha hlim]
    exact ⟨fun hlong => armInNext_unstaged hne (stagesTransfer_long hst hlong),
      fun hshort hw hc hfit => armInNext_armed hw hc (stagesTransfer_short hshort) hfit⟩

end Sys2Proof.Machine
end

/-! ## The control state machine: what a SETUP step answers -/

section
namespace Sys2Proof.Machine

open Sys2Proof

/-! ### The answer of each request (40_control_state_machine.md rules R111, R121)

Each request, once its first lines have run, either errs before anything is armed or ends in one of the ways that arm. -/

/-- `u` is `s` in the SETUP step of the request `q`: the request is latched, `S.fatal` and the parameters are as before. -/
structure Latched (q : Req) (s u : State) : Prop where
  cfg : u.cfg = s.cfg
  req : u.eng.req = q
  fatal : u.eng.fatal = s.eng.fatal

/-- The answer of the SETUP step of the request `q`. An `error` comes after the beginning of the step and at most calls of the
Firmware-Update Engine; every other way says from where and how much it arms. -/
inductive SetupAnswers (q : Req) (s : State) : Result → Prop where
  | erred (c : ErrorCause) (calls : List FwCall) : SetupAnswers q s (.next (error c { beginSetup q s with calls := calls }))
  | acked {u : State} (hu : Latched q s u) : SetupAnswers q s (.next (ack u))
  | replied {u : State} (hu : Latched q s u) (bs : List Byte) (hlen : bs.length ≤ 8) (requested : HWord) :
    SetupAnswers q s (reply bs requested u)
  | sentMsOs {u : State} (hu : Latched q s u) (requested : HWord) :
    SetupAnswers q s (send u.cfg.msOsData u.cfg.msOsLength requested u)
  | sentEntry {u : State} (hu : Latched q s u) (e : DescEntry) (he : e ∈ u.cfg.descTable) (requested : HWord) :
    SetupAnswers q s (orFault (reportedLength e u) fun n => send e.data n requested u)
  | received {u : State} (hu : Latched q s u) (length : HWord) (hlen : length ≠ 0#16) :
    SetupAnswers q s (recv u.cfg.rxbufBase length u)

section Answers

variable {q : Req} {s t u : State} {r : Result}

theorem beginSetup_latched (q : Req) (s : State) : Latched q s (beginSetup q s) := ⟨rfl, rfl, rfl⟩

theorem Latched.addCall (hu : Latched q s u) (c : FwCall) : Latched q s (u.addCall c) := ⟨hu.cfg, hu.req, hu.fatal⟩

theorem Latched.emit (hu : Latched q s u) (c : Command) : Latched q s (u.emit c) := ⟨hu.cfg, hu.req, hu.fatal⟩

/-- A check that comes before any call. -/
theorem SetupAnswers.check {p : Prop} [Decidable p] (c : ErrorCause) (h : ¬ p → SetupAnswers q s r) :
    SetupAnswers q s (if p then .next (error c (beginSetup q s)) else r) := by
  split
  · exact .erred c s.calls
  · next hp => exact h hp

theorem SetupAnswers.erredAfterCall (c : ErrorCause) (call : FwCall) :
    SetupAnswers q s (.next (error c ((beginSetup q s).addCall call))) := .erred c (s.calls ++ [call])

/-- The answer of the Firmware-Update Engine decides. -/
theorem SetupAnswers.ackOrError (accepted : Bool) (c : ErrorCause) (call : FwCall) :
    SetupAnswers q s (.next (ackOrError accepted c ((beginSetup q s).addCall call))) := by
  cases accepted
  · exact .erredAfterCall c call
  · exact .acked ((beginSetup_latched q s).addCall call)

theorem execClearFeatureEndpoint_answers (value index length : HWord) (s : State) :
    SetupAnswers ⟨0x0102#16, value, index, length⟩ s (execClearFeatureEndpoint value index length s) := by
  simp only [execClearFeatureEndpoint]
  split
  · exact .erred _ s.calls
  · exact .acked (beginSetup_latched _ s)

theorem execSetFeatureEndpoint_answers (value index length : HWord) (s : State) :
    SetupAnswers ⟨0x0302#16, value, index, length⟩ s (execSetFeatureEndpoint value index length s) := by
  simp only [execSetFeatureEndpoint]
  split
  · exact .erred _ s.calls
  · split
    · exact .acked (((beginSetup_latched _ s).emit _).emit _)
    · exact .acked (beginSetup_latched _ s)

theorem execGetDescriptor_answers (value index length : HWord) (s : State) :
    SetupAnswers ⟨0x0680#16, value, index, length⟩ s (execGetDescriptor value index length s) := by
  simp only [execGetDescriptor]
  split
  · exact .erred _ s.calls
  · next e he => exact .sentEntry (beginSetup_latched _ s) e (List.mem_of_find?_eq_some he) length

theorem execDfuGetstatus_answers (value index length : HWord) (s : State) :
    SetupAnswers ⟨0x03A1#16, value, index, length⟩ s (execDfuGetstatus value index length s) := by
  refine .check _ fun _ => ?_
  split
  · next st _ => exact .replied ((beginSetup_latched _ s).addCall _) (statusBytes st) (by simp [statusBytes]) length
  · exact .erredAfterCall _ _

theorem execDfuDnload_answers (value index length : HWord) (s : State) :
    SetupAnswers ⟨0x0121#16, value, index, length⟩ s (execDfuDnload value index length s) := by
  refine .check _ fun _ => ?_
  split
  · exact .ackOrError _ _ _
  · next hlen => exact .received (beginSetup_latched _ s) length hlen

/-- The SETUP step of each of the fourteen requests. -/
theorem exec_requestInstr_answers (k : RequestKind) (value index length : HWord) (s : State) :
    SetupAnswers ⟨k.key s.cfg.msftVendorCode, value, index, length⟩ s (exec (k.instr value index length) s) := by
  cases k with
  | setAddress => exact .acked ⟨rfl, rfl, rfl⟩
  | setConfiguration => exact .acked ⟨rfl, rfl, rfl⟩
  | getConfiguration => exact .replied (beginSetup_latched _ s) _ (by simp) length
  | getStatusDevice => exact .replied (beginSetup_latched _ s) _ (by simp [bytesLe16]) length
  | getStatusEndpoint =>
    exact .check _ fun _ => .replied (beginSetup_latched _ s) _ (by simp [endpointStatus]) length
  | clearFeatureEndpoint => exact execClearFeatureEndpoint_answers value index length s
  | setFeatureEndpoint => exact execSetFeatureEndpoint_answers value index length s
  | getDescriptor => exact execGetDescriptor_answers value index length s
  | msOsDescriptor => exact .check _ fun _ => .sentMsOs (beginSetup_latched _ s) length
  | dfuDnload => exact execDfuDnload_answers value index length s
  | dfuGetstatus => exact execDfuGetstatus_answers value index length s
  | dfuClrstatus => exact .check _ fun _ => .ackOrError _ _ _
  | dfuGetstate => exact .check _ fun _ => .replied ((beginSetup_latched _ s).addCall _) [s.answers.getState] (by simp) length
  | dfuAbort => exact .check _ fun _ => .ackOrError _ _ _

/-- A SETUP event answers as the request of its newest record does. -/
theorem exec_eventSetup_answers {recs : List Record} {newest : Record} (hnew : newestRecord recs = some newest) (s : State) :
    SetupAnswers newest.req s (exec (.eventSetup recs) s) := by
  rw [exec_eventSetup_of_newest hnew, decodeRecord]
  rcases instr_cases s.cfg.msftVendorCode newest.req with ⟨k, hkey, hinstr⟩ | ⟨-, hinstr⟩
  · rw [hinstr]
    have hk := exec_requestInstr_answers k newest.req.value newest.req.index newest.req.length s
    rwa [hkey] at hk
  · rw [hinstr]
    exact .erred .unknownKey s.calls

/-! ### The ways that arm leave `WaitSetup` and keep the latch -/

/-- `t` is `u` after the entry into a data or status stage. -/
structure StageEntered (u t : State) : Prop where
  phase : t.eng.phase ≠ .waitSetup
  req : t.eng.req = u.eng.req
  fatal : t.eng.fatal = u.eng.fatal

theorem ack_stageEntered (u : State) : StageEntered u (ack u) := ⟨by simp [ack_eq], rfl, rfl⟩

theorem phaseForRemaining_ne_waitSetup (rem : HWord) : phaseForRemaining rem ≠ .waitSetup := by
  unfold phaseForRemaining
  split <;> decide

theorem send_stageEntered {a : Nat} {dataLen requested : HWord} (h : send a dataLen requested u = .next t) :
    StageEntered u t := by
  rcases send_cases h with ⟨-, -, rfl⟩ | h
  · rw [statusOut_eq]
    exact ⟨by simp, rfl, rfl⟩
  · have heng := armInNext_eng h
    exact ⟨by rw [heng]; exact phaseForRemaining_ne_waitSetup _, by rw [heng]; rfl, by rw [heng]; rfl⟩

theorem reply_stageEntered {bs : List Byte} {requested : HWord} (h : reply bs requested u = .next t) :
    StageEntered u t :=
  have hsent := send_stageEntered (reply_cases h)
  ⟨hsent.phase, hsent.req, hsent.fatal⟩

theorem recv_stageEntered {a : Nat} {length : HWord} (h : recv a length u = .next t) : StageEntered u t := by
  obtain ⟨v, hv, rfl⟩ := recv_cases h
  have heng := armOut_eng hv
  exact ⟨by simp, by simp [heng], by simp [heng]⟩

/-- What a SETUP step that answers a next state can have done. -/
theorem SetupAnswers.cases_next (h : SetupAnswers q s r) (hr : r = .next t) :
    (∃ calls, t = { s.requestStalled q with calls := calls }) ∨ ∃ u, Latched q s u ∧ StageEntered u t := by
  cases h with
  | erred c calls =>
    cases hr
    exact .inl ⟨calls, by rw [error_eq, beginSetup_eq]; rfl⟩
  | acked hu => cases hr; exact .inr ⟨_, hu, ack_stageEntered _⟩
  | replied hu bs hlen requested => exact .inr ⟨_, hu, reply_stageEntered hr⟩
  | sentMsOs hu requested => exact .inr ⟨_, hu, send_stageEntered hr⟩
  | sentEntry hu e he requested =>
    obtain ⟨n, -, hr⟩ := orFault_eq_next hr
    exact .inr ⟨_, hu, send_stageEntered hr⟩
  | received hu length hlen => exact .inr ⟨_, hu, recv_stageEntered hr⟩

theorem SetupAnswers.latched (h : SetupAnswers q s r) (hr : r = .next t) :
    t.eng.req = q ∧ t.eng.fatal = s.eng.fatal := by
  rcases h.cases_next hr with ⟨calls, rfl⟩ | ⟨u, hu, ht⟩
  · exact ⟨rfl, rfl⟩
  · exact ⟨ht.req.trans hu.req, ht.fatal.trans hu.fatal⟩

/-! ### The ways that arm answer when the packet has room (20_memory.md rules R50, R62) -/

theorem reply_next {bs : List Byte} (hc : configOk u.cfg = true) (hlen : bs.length ≤ 8) (requested : HWord) :
    ∃ t, reply bs requested u = .next t := by
  obtain ⟨-, hreply⟩ := configOk_reply hc
  have hn : (BitVec.ofNat 16 bs.length).toNat ≤ 8 := (Nat.mod_le _ _).trans hlen
  rw [reply, memWrite_of_fits (by omega), orFault_ok]
  exact send_next (s := u.setMem _) hc (show u.cfg.replyBase + _ ≤ addrLimit u.cfg by omega)

theorem recv_next {length : HWord} (hlen : length ≠ 0#16) (hroom : 64 ≤ u.cfg.rxBufSize) :
    ∃ t, recv u.cfg.rxbufBase length u = .next t := by
  have hk := armedLength_le length
  have hfits := armOut_fits (s := u.setXfer ⟨u.cfg.rxbufBase, length, false⟩) (mt armedLength_eq_zero.mp hlen)
    (Nat.le_refl u.cfg.rxbufBase) (Nat.add_le_add_left (hk.trans hroom) _)
  exact ⟨_, congrArg (thenDo · _) hfits⟩

/-- A string entry lies in the address space with at least the byte that says its length (30_encoding.md rule R86). -/
theorem reportedLength_ok (hc : configOk u.cfg = true) {e : DescEntry} (he : e ∈ u.cfg.descTable) :
    ∃ n, reportedLength e u = .ok n := by
  obtain ⟨hdata, -⟩ := configOk_entry hc he
  unfold reportedLength
  rw [memRead_of_fits (Nat.succ_le_of_lt hdata)]
  split <;> exact ⟨_, rfl⟩

theorem SetupAnswers.exists_next (h : SetupAnswers q s r) (hc : configOk s.cfg = true) (hroom : 64 ≤ s.cfg.rxBufSize)
    (htable : ∀ e ∈ s.cfg.descTable, e.data + 64 ≤ addrLimit s.cfg) : ∃ t, r = .next t := by
  cases h with
  | erred c calls => exact ⟨_, rfl⟩
  | acked hu => exact ⟨_, rfl⟩
  | replied hu bs hlen requested => exact reply_next (by rwa [hu.cfg]) hlen requested
  | sentMsOs hu requested =>
    rw [← hu.cfg] at hc
    obtain ⟨-, hmsOs⟩ := configOk_msOs hc
    exact send_next hc (by omega)
  | sentEntry hu e he requested =>
    rw [← hu.cfg] at hc htable
    obtain ⟨n, hn⟩ := reportedLength_ok hc he
    rw [hn, orFault_ok]
    exact send_next hc (le_trans (by omega) (htable e he))
  | received hu length hlen => exact recv_next hlen (by rwa [hu.cfg])

end Answers

/-- Settles O38: every request answers when its packet has room, with itself latched, and the outside is left by all. -/
theorem everySetupEventIsHandled : Obligations.EverySetupEventIsHandled := by
  intro older r s holder hc hroom htable
  have hanswers := exec_eventSetup_answers (newestRecord_append holder r) s
  obtain ⟨t, ht⟩ := hanswers.exists_next hc hroom htable
  obtain ⟨hreq, hfatal⟩ := hanswers.latched ht
  exact ⟨t, ht, hreq, hfatal, (exec_effect ht).outside⟩

/-- Settles O40: only `error` ends in `WaitSetup`, and before it a SETUP step has at most made a call. -/
theorem erroringSetupArmsNothing : Obligations.ErroringSetupArmsNothing := by
  intro recs s t h hphase
  cases hnew : newestRecord recs with
  | none => rw [exec_eventSetup_malformed hnew] at h; cases h
  | some r =>
    rcases (exec_eventSetup_answers hnew s).cases_next h with ⟨calls, rfl⟩ | ⟨u, -, ht⟩
    · exact ⟨rfl, rfl, rfl, rfl, rfl⟩
    · exact absurd hphase ht.phase

/-! ### A SETUP event supersedes the transfer in progress (rule R124) -/

/-- A request reads the state only as the first lines of its step leave it (rule R111), with the three fields overwritten. -/
theorem dispatch_superseded (q q' : Req) (s : State) (p : Phase) (x : Xfer) :
    dispatch q { s with eng := { s.eng with phase := p, xfer := x, req := q' } } = dispatch q s := by
  simp only [dispatch]
  cases classify s.cfg.msftVendorCode q.key with
  | none => rfl
  | some k => cases k <;> rfl

/-- Settles O39: the first lines of a SETUP step overwrite the three fields, and its request goes on from there. -/
theorem setupSupersedesTheTransferInProgress : Obligations.SetupSupersedesTheTransferInProgress := by
  intro recs s p x q
  cases hnew : newestRecord recs with
  | none => rw [exec_eventSetup_malformed hnew, exec_eventSetup_malformed hnew]
  | some r => simp only [exec, execEventSetup, hnew, dispatch_superseded]

end Sys2Proof.Machine
end

/-! ## The data stage: what one completion does, and whole transfers packet by packet -/

section
namespace Sys2Proof.Machine

open Sys2Proof

/-! ### A count above the armed length (41_data_stage_chunking.md rule R147) -/

theorem inAdvance_exceeds {n : HWord} {s : State} (h : armedLength s.eng.xfer.remaining < n.toNat) :
    inAdvance n s = .fault .countExceedsArmed := if_pos h

theorem outAdvance_exceeds {n : HWord} {s : State} (h : armedLength s.eng.xfer.remaining < n.toNat) :
    outAdvance n s = .fault .countExceedsArmed := if_pos h

/-- Settles O18: both directions compare the count with the armed length before anything else. -/
theorem countAboveTheArmedLengthFaults : Obligations.CountAboveTheArmedLengthFaults := by
  refine fun n s hn => ⟨fun hp => ?_, fun hp => ?_⟩
  · rw [exec_inDone_data hp, inAdvance_exceeds hn]
  · rw [exec_outDone_data hp, outAdvance_exceeds hn]

/-! ### One IN completion (rules R141 to R143) -/

/-- Settles O20: the completion advances the transfer context, and `arm_in_next()` stages the packet or leaves the space. -/
theorem inCompletionArmsTheNextPacket : Obligations.InCompletionArmsTheNextPacket := by
  intro n rem a s hw hc hst hp hn hrem hne ha hlim
  have hst' := stagesTransfer_all (len := s.sendLen) hst
  rw [exec_inDone_more hp hn hrem hne ha hlim]
  exact ⟨armInNext_armed (s := s.setXfer ⟨a, rem, s.eng.xfer.zlp⟩) hw hc hst',
    fun hunaligned hout => armInNext_outside (s := s.setXfer _) hst' hunaligned hne hout⟩

/-- The last bytes of an IN transfer have completed. -/
theorem exec_inDone_last {n : HWord} {s : State} (hp : s.eng.phase = .inData ∨ s.eng.phase = .lastInData)
    (hn : n.toNat ≤ 64) (hlast : n = s.eng.xfer.remaining) (hb : s.eng.xfer.buffer + n.toNat < addrLimit s.cfg) :
    exec (.eventInDone 0#4 n) s = inNext (s.setXfer ⟨s.eng.xfer.buffer + n.toNat, 0#16, s.eng.xfer.zlp⟩) := by
  have hle : n.toNat ≤ armedLength s.eng.xfer.remaining := by rw [← hlast]; exact le_min le_rfl hn
  rw [exec_inDone_data hp, inAdvance_eq hle hb, sub_eq_zero_iff.mpr hlast.symm]

/-- Settles O21: nothing is left, so `zlp` decides between the deferred empty packet and the status stage. -/
theorem lastInCompletionSendsTheZeroLengthPacketOrEntersStatus :
    Obligations.LastInCompletionSendsTheZeroLengthPacketOrEntersStatus := by
  intro n s hp hn hlast hb
  rw [exec_inDone_last hp hn hlast hb]
  refine ⟨fun hz => ?_, fun hz => ?_⟩
  · rw [hz, inNext_zlp (s := s.setXfer _) rfl rfl, armInNext_empty rfl]
    rfl
  · rw [hz, inNext_done (s := s.setXfer _) rfl rfl, statusOut_eq]
    rfl

/-! ### One OUT completion of a DNLOAD (rules R144 to R146, 44_dfu_requests.md rule R190) -/

/-- Settles O22: the call is made with the count as it was before, and what is left after it decides what follows. -/
theorem acceptedDnloadPacketAdvancesTheTransfer : Obligations.AcceptedDnloadPacketAdvancesTheTransfer := by
  intro n s hp hk hd hn hr hb
  rw [exec_outDone_data hp, outAdvance_eq hk hd hn hr hb]
  refine ⟨fun hdone => ?_, fun hmore hlo hhi => ?_, fun hmore hout => ?_⟩
  · have hleft := sub_eq_zero_iff.mpr hdone
    rw [outNext_done hleft, ack_eq, hleft]
    rfl
  · have hleft := mt sub_eq_zero_iff.mp hmore
    exact (outNext_more hleft).trans (armOut_fits (mt armedLength_eq_zero.mp hleft) hlo hhi)
  · have hleft := mt sub_eq_zero_iff.mp hmore
    exact (outNext_more hleft).trans (armOut_overrun (mt armedLength_eq_zero.mp hleft) hout)

/-- An OUT completion of a rejected DNLOAD packet whose count is in range. -/
theorem outAdvance_rejected {n : HWord} {s : State} (hk : s.eng.req.key = 0x0121#16) (hd : s.answers.download = false)
    (hn : n.toNat ≤ armedLength s.eng.xfer.remaining)
    (hr : s.eng.xfer.buffer + armedLength s.eng.xfer.remaining ≤ addrLimit s.cfg) :
    outAdvance n s = .next (error .dnloadRejected (s.addCall (dnloadForward s))) := by
  simp only [outAdvance, Nat.not_lt.mpr hn, if_false, hk, RequestKind.key, if_true, forwardDnload, memRead_of_fits hr,
    orFault_ok, State.addCall_answers, hd, Bool.false_eq_true]
  rfl

/-- Settles O23: `error` follows the call, before the transfer context is touched. -/
theorem rejectedDnloadPacketStallsAndKeepsTheContext : Obligations.RejectedDnloadPacketStallsAndKeepsTheContext := by
  intro n s hp hk hd hn hr
  rw [exec_outDone_data hp, outAdvance_rejected hk hd hn hr, error_eq]
  rfl

/-! ### A run of completions -/

/-- An IN completion that reports the armed length (one step of `fullIn`). -/
def inCompletion (s : State) : Result :=
  exec (.eventInDone 0#4 (BitVec.ofNat 16 (min s.eng.xfer.remaining.toNat 64))) s

/-- An OUT completion that reports the armed length (one step of `fullOut`). -/
def outCompletion (s : State) : Result :=
  exec (.eventOutDone 0#4 (BitVec.ofNat 16 (min s.eng.xfer.remaining.toNat 64))) s

/-- A run that is defined by its first completion can be taken apart at its last. -/
theorem thenDo_run_succ {f : State → Result} {run : Nat → State → Result} (hzero : ∀ s, run 0 s = .next s)
    (hsucc : ∀ k s, run (k + 1) s = thenDo (f s) (run k)) (k : Nat) (r : Result) :
    thenDo r (run (k + 1)) = thenDo (thenDo r (run k)) f := by
  induction k generalizing r with
  | zero =>
    cases r with
    | next s =>
      rw [thenDo_next, thenDo_next, hsucc, hzero, thenDo_next]
      cases f s <;> simp [thenDo, hzero]
    | fault e => rfl
    | refused e => rfl
  | succ k ih =>
    cases r with
    | next s => rw [thenDo_next, thenDo_next, hsucc, ih, ← hsucc]
    | fault e => rfl
    | refused e => rfl

theorem thenDo_fullIn_succ (k : Nat) (r : Result) :
    thenDo r (fullIn (k + 1)) = thenDo (thenDo r (fullIn k)) inCompletion :=
  thenDo_run_succ (fun _ => rfl) (fun _ _ => rfl) k r

theorem thenDo_fullOut_succ (k : Nat) (r : Result) :
    thenDo r (fullOut (k + 1)) = thenDo (thenDo r (fullOut k)) outCompletion :=
  thenDo_run_succ (fun _ => rfl) (fun _ _ => rfl) k r

/-! ### The bytes left after each packet -/

/-- What is left of `len` bytes after `j` full packets; none after a last short one. -/
def bytesLeft (len : HWord) (j : Nat) : HWord := BitVec.ofNat 16 (len.toNat - 64 * j)

@[simp] theorem bytesLeft_toNat (len : HWord) (j : Nat) : (bytesLeft len j).toNat = len.toNat - 64 * j :=
  Nat.mod_eq_of_lt ((Nat.sub_le _ _).trans_lt len.isLt)

@[simp] theorem bytesLeft_zero (len : HWord) : bytesLeft len 0 = len := BitVec.eq_of_toNat_eq (by simp)

theorem bytesLeft_ne_zero_iff {len : HWord} {j : Nat} : bytesLeft len j ≠ 0#16 ↔ 64 * j < len.toNat := by
  rw [BitVec.toNat_ne, bytesLeft_toNat, BitVec.toNat_ofNat]
  omega

theorem armedLength_bytesLeft (len : HWord) (j : Nat) : armedLength (bytesLeft len j) = min (len.toNat - 64 * j) 64 := by
  rw [armedLength, bytesLeft_toNat, maxPacket]

/-- The count of a completion that reports the armed length. -/
theorem reportedCount_toNat (rem : HWord) : (BitVec.ofNat 16 (min rem.toNat 64)).toNat = min rem.toNat 64 :=
  Nat.mod_eq_of_lt ((Nat.min_le_left _ _).trans_lt rem.isLt)

theorem reportedCount_bytesLeft (len : HWord) (j : Nat) :
    (BitVec.ofNat 16 (min (bytesLeft len j).toNat 64)).toNat = min (len.toNat - 64 * j) 64 := by
  rw [reportedCount_toNat, bytesLeft_toNat]

/-- Such a completion takes one packet from the count. -/
theorem bytesLeft_sub (len : HWord) (j : Nat) :
    bytesLeft len j - BitVec.ofNat 16 (min (bytesLeft len j).toNat 64) = bytesLeft len (j + 1) := by
  apply BitVec.eq_of_toNat_eq
  rw [sub_toNat (by rw [reportedCount_toNat]; omega), reportedCount_toNat, bytesLeft_toNat, bytesLeft_toNat]
  omega

theorem sub_bytesLeft {len : HWord} {j : Nat} (hj : 64 * j ≤ len.toNat) :
    len - bytesLeft len j = BitVec.ofNat 16 (64 * j) := by
  have hlen := len.isLt
  apply BitVec.eq_of_toNat_eq
  rw [sub_toNat (by rw [bytesLeft_toNat]; omega), bytesLeft_toNat, BitVec.toNat_ofNat]
  omega

/-! ### A DNLOAD packet by packet (rule R150, 44_dfu_requests.md rule R191) -/

/-- `s` in a DNLOAD of `total` bytes, when `j` packets have been forwarded and the next one is armed. -/
def dnloadStage (value total : HWord) (s : State) (j : Nat) : State :=
  { s.emitted ((List.range (j + 1)).map (outPacket s.cfg.rxbufBase total.toNat)) with
    eng := { s.eng with
      phase := .outData
      xfer := ⟨s.cfg.rxbufBase + 64 * j, bytesLeft total j, false⟩
      req := ⟨0x0121#16, value, 0#16, total⟩ }
    calls := s.calls ++ (List.range j).map (outCall value s.mem s.cfg.rxbufBase total.toNat)
    sendLen := 0#16 }

section Dnload

variable {value total : HWord} {s : State} {j : Nat}

theorem dnloadStage_xfer :
    (dnloadStage value total s j).eng.xfer = ⟨s.cfg.rxbufBase + 64 * j, bytesLeft total j, false⟩ := rfl

theorem exec_dfuDnload_recv (hne : total ≠ 0#16) :
    exec (.dfuDnload value 0#16 total) s = recv s.cfg.rxbufBase total (beginRequest .dfuDnload value 0#16 total s) :=
  if_neg hne

/-- The whole effect of `recv` into a buffer that lies in `RXBUF` (40_control_state_machine.md rule R115). -/
theorem recv_armed {buffer : Nat} {length : HWord} (hne : length ≠ 0#16) (hlo : s.cfg.rxbufBase ≤ buffer)
    (hhi : buffer + armedLength length ≤ s.cfg.rxbufBase + s.cfg.rxBufSize) :
    recv buffer length s = .next (((s.setXfer ⟨buffer, length, false⟩).emit
      (.armOut (some buffer) (armedLength length))).setPhase .outData) := by
  rw [recv, armOut_fits (s := s.setXfer ⟨buffer, length, false⟩) (mt armedLength_eq_zero.mp hne) hlo hhi, thenDo_next]

/-- The request arms packet 0. -/
theorem exec_dfuDnload_stage (hsome : 1 ≤ total.toNat) (hroom : total.toNat ≤ s.cfg.rxBufSize) :
    exec (.dfuDnload value 0#16 total) s = .next (dnloadStage value total s 0) := by
  have hne : total ≠ 0#16 := (BitVec.ne_of_lt (x := 0#16) hsome).symm
  have hfit : s.cfg.rxbufBase + armedLength total ≤ s.cfg.rxbufBase + s.cfg.rxBufSize :=
    Nat.add_le_add_left ((Nat.min_le_left _ _).trans hroom) _
  have hrecv := recv_armed (s := beginRequest .dfuDnload value 0#16 total s) hne le_rfl hfit
  refine (exec_dfuDnload_recv hne).trans (hrecv.trans ?_)
  rw [dnloadStage, bytesLeft_zero, List.range_zero, List.map_nil, List.append_nil]
  rfl

theorem dnloadForward_stage (hj : 64 * j ≤ total.toNat) :
    dnloadForward (dnloadStage value total s j) = outCall value s.mem s.cfg.rxbufBase total.toNat j := by
  simp only [dnloadForward, dnloadStage, outCall, sub_bytesLeft hj, bytesLeft_toNat, BitVec.ofNat_toNat,
    BitVec.setWidth_eq, State.emitted_mem]

/-- Every completion hands its packet to the Firmware-Update Engine and takes it from the count. -/
theorem outCompletion_forwards (hlim : s.cfg.rxbufBase + total.toNat < 2 ^ s.cfg.addrW) (hd : s.answers.download = true)
    (hj : 64 * j ≤ total.toNat) :
    outCompletion (dnloadStage value total s j) =
      outNext (((dnloadStage value total s j).addCall (outCall value s.mem s.cfg.rxbufBase total.toNat j)).setXfer
        ⟨s.cfg.rxbufBase + 64 * j + min (total.toNat - 64 * j) 64, bytesLeft total (j + 1), false⟩) := by
  have hfit : s.cfg.rxbufBase + 64 * j + min (total.toNat - 64 * j) 64 < 2 ^ s.cfg.addrW := by omega
  have hcount := reportedCount_bytesLeft total j
  have hrun : outCompletion (dnloadStage value total s j) =
    outAdvance (BitVec.ofNat 16 (min (bytesLeft total j).toNat 64)) (dnloadStage value total s j) := exec_outDone_data rfl
  rw [hrun, outAdvance_eq (s := dnloadStage value total s j) rfl hd (reportedCount_toNat (bytesLeft total j)).le,
    dnloadForward_stage hj]
  · simp only [dnloadStage_xfer, bytesLeft_sub, hcount]
  · rw [dnloadStage_xfer, armedLength_bytesLeft]
    exact hfit.le
  · rw [dnloadStage_xfer, hcount]
    exact hfit

/-- After a packet that is not the last the next one is armed. -/
theorem outCompletion_stage (hroom : total.toNat ≤ s.cfg.rxBufSize) (hlim : s.cfg.rxbufBase + total.toNat < 2 ^ s.cfg.addrW)
    (hd : s.answers.download = true) (hj : 64 * (j + 1) < total.toNat) :
    outCompletion (dnloadStage value total s j) = .next (dnloadStage value total s (j + 1)) := by
  have hne := bytesLeft_ne_zero_iff.mpr hj
  have hfull : s.cfg.rxbufBase + 64 * j + min (total.toNat - 64 * j) 64 = s.cfg.rxbufBase + 64 * (j + 1) := by omega
  have hk := armedLength_bytesLeft total (j + 1)
  rw [outCompletion_forwards hlim hd (by omega), hfull]
  refine (outNext_more hne).trans ((armOut_fits (mt armedLength_eq_zero.mp hne) ?_ ?_).trans ?_)
  · simp [dnloadStage]
  · simp only [dnloadStage, State.setXfer_eng, State.setXfer_cfg, State.addCall_cfg, State.emitted_cfg, hk]
    omega
  · simp [dnloadStage, State.emit, State.emitted, State.setXfer, State.addCall, hk, List.range_succ, outPacket]

/-- After the last packet nothing is left and the transfer is acknowledged. -/
theorem outCompletion_last (hlim : s.cfg.rxbufBase + total.toNat < 2 ^ s.cfg.addrW) (hd : s.answers.download = true)
    (hj : 64 * j ≤ total.toNat) (hlast : total.toNat ≤ 64 * (j + 1)) :
    outCompletion (dnloadStage value total s j) =
      .next (ack (((dnloadStage value total s j).addCall (outCall value s.mem s.cfg.rxbufBase total.toNat j)).setXfer
        ⟨s.cfg.rxbufBase + 64 * j + min (total.toNat - 64 * j) 64, 0#16, false⟩)) := by
  have hzero : bytesLeft total (j + 1) = 0#16 := not_not.mp (mt bytesLeft_ne_zero_iff.mp (Nat.not_lt.mpr hlast))
  rw [outCompletion_forwards hlim hd hj, hzero]
  exact outNext_done rfl

/-- After `j` completions, fewer than there are packets. -/
theorem fullOut_stage (hroom : total.toNat ≤ s.cfg.rxBufSize) (hlim : s.cfg.rxbufBase + total.toNat < 2 ^ s.cfg.addrW)
    (hd : s.answers.download = true) (hj : 64 * j < total.toNat) :
    thenDo (exec (.dfuDnload value 0#16 total) s) (fullOut j) = .next (dnloadStage value total s j) := by
  induction j with
  | zero =>
    rw [exec_dfuDnload_stage hj hroom]
    rfl
  | succ j ih => rw [thenDo_fullOut_succ, ih (by omega), thenDo_next, outCompletion_stage hroom hlim hd hj]

end Dnload

/-- Settles O47: every completion but the last arms the next packet, the last one acknowledges. -/
theorem outTransferForwardsEveryPacketThenAcknowledges : Obligations.OutTransferForwardsEveryPacketThenAcknowledges := by
  intro value total s hsome hroom hlim hd
  obtain ⟨j, hj⟩ : ∃ j, (total.toNat + 63) / 64 = j + 1 := ⟨(total.toNat - 1) / 64, by omega⟩
  rw [hj, thenDo_fullOut_succ, fullOut_stage hroom hlim hd (by omega), thenDo_next,
    outCompletion_last hlim hd (by omega) (by omega)]
  refine ⟨_, rfl, rfl, rfl, rfl, rfl, ?_, _, exec_inDone_status rfl, rfl⟩
  simp [ack_eq, dnloadStage, List.range_succ]

/-! ### An IN transfer packet by packet (rule R149) -/

/-- `u` is `s` in an IN stage of `len` bytes from `a`, when `j` packets have completed and `k` have been armed. The deferred
empty packet is due while full packets are left and the length is a multiple of 64. -/
structure InSent (a : Nat) (len : HWord) (s : State) (j k : Nat) (u : State) : Prop where
  cfg : u.cfg = s.cfg
  xfer : u.eng.xfer = ⟨a + 64 * j, bytesLeft len j, decide (j < len.toNat / 64 ∧ len.toNat % 64 = 0)⟩
  commands : ∃ arms, u.commands = s.commands ++ arms ∧
    armInLengths arms = (List.range k).map fun i => some (min (len.toNat - 64 * i) 64)

/-- `u` has packet `j` armed, after the completions of those before it. -/
structure InStage (a : Nat) (len : HWord) (s : State) (j : Nat) (u : State) : Prop extends InSent a len s j (j + 1) u where
  phase : u.eng.phase = phaseForRemaining (bytesLeft len j)

/-- The lengths of the packets of an IN transfer: `j` full ones, and then the next full one or the last. -/
theorem packetLengths {len j : Nat} (hj : j ≤ len / 64) :
    ((List.range (j + 1)).map fun i => some (min (len - 64 * i) 64)) =
      List.replicate j (some 64) ++ [some (if j < len / 64 then 64 else len % 64)] := by
  have hfull : ((List.range j).map fun i => some (min (len - 64 * i) 64)) = List.replicate j (some 64) := by
    refine List.eq_replicate_iff.mpr ⟨by simp, fun x hx => ?_⟩
    obtain ⟨i, hi, rfl⟩ := List.mem_map.mp hx
    have hij := List.mem_range.mp hi
    exact congrArg some (by omega)
  have hnext : min (len - 64 * j) 64 = if j < len / 64 then 64 else len % 64 := by split <;> omega
  rw [List.range_succ, List.map_append, hfull, List.map_singleton, hnext]

/-- Of these packets all are non-empty, but for a last one when the length is a multiple of 64. -/
theorem count_nonempty_packets (len : Nat) :
    ((List.replicate (len / 64) (some 64) ++ [some (len % 64)]).filter fun k => decide (k ≠ some 0)).length =
      (len + 63) / 64 := by
  rw [List.filter_append, List.filter_replicate_of_pos (by decide), List.filter_singleton, List.length_append,
    List.length_replicate]
  by_cases hlast : len % 64 = 0
  · rw [decide_eq_false (by simp [hlast]), cond_false, List.length_nil]
    omega
  · rw [decide_eq_true (by simp [hlast]), cond_true, List.length_singleton]
    omega

theorem phaseForRemaining_data (rem : HWord) : phaseForRemaining rem = .inData ∨ phaseForRemaining rem = .lastInData := by
  unfold phaseForRemaining
  split
  · exact .inr rfl
  · exact .inl rfl

/-- `arm_in_next()` adds one `ArmIn`, of the length that R140 says. -/
theorem armInNext_arms {s t : State} (h : armInNext s = .next t) :
    ∃ addr, t.commands = s.commands ++ [.armIn addr (armedLength s.eng.xfer.remaining)] := by
  rcases armInNext_cases h with ⟨hk, rfl⟩ | ⟨-, h⟩
  · exact ⟨none, by rw [hk]; rfl⟩
  · rcases armIn_cases h with ⟨-, rfl⟩ | ⟨-, rfl⟩ <;> exact ⟨_, rfl⟩

/-- What follows a completed packet when bytes or the deferred empty packet are left (rule R143). -/
theorem inNext_arms {s : State} (h : s.eng.xfer.remaining ≠ 0#16 ∨ s.eng.xfer.zlp = true) :
    inNext s = armInNext (s.setXfer ⟨s.eng.xfer.buffer, s.eng.xfer.remaining,
      decide (s.eng.xfer.remaining ≠ 0#16) && s.eng.xfer.zlp⟩) := by
  by_cases hr : s.eng.xfer.remaining = 0#16
  · rw [inNext_zlp hr (h.resolve_left (not_not.mpr hr))]
    simp [hr]
  · rw [inNext_more hr]
    simp [hr, State.setXfer]

/-- `send` with an empty reply sent as a zero-length packet (decision D9 of 92_eei_decisions.md). -/
theorem send_oneZlp {a : Nat} {dataLen requested : HWord} {s : State} (h : s.cfg.zeroLenSend = .oneZlp) :
    send a dataLen requested s = armInNext (loadSend a (clampLength dataLen requested) s) :=
  if_neg (by simp [h])

section InTransfer

variable {a : Nat} {len : HWord} {s u : State} {j : Nat}

theorem loadSend_inSent (a : Nat) (len : HWord) (s : State) : InSent a len s 0 0 (loadSend a len s) := by
  refine ⟨rfl, ?_, [], by simp [loadSend], rfl⟩
  have hzlp : zlpFlag len = decide (0 < len.toNat / 64 ∧ len.toNat % 64 = 0) :=
    decide_eq_decide.mpr (by simp only [maxPacket]; omega)
  rw [bytesLeft_zero, ← hzlp]
  rfl

/-- The next packet is armed, wherever it lies. -/
theorem InSent.exists_armed (h : InSent a len s j j u) (hc : configOk s.cfg = true) (hlim : a + len.toNat < addrLimit s.cfg)
    (hj : 64 * j ≤ len.toNat) : ∃ t, armInNext u = .next t ∧ InStage a len s j t := by
  have hfit : u.eng.xfer.buffer + armedLength u.eng.xfer.remaining ≤ addrLimit u.cfg := by
    rw [h.xfer, h.cfg, armedLength_bytesLeft]
    simp only
    omega
  obtain ⟨t, ht⟩ := armInNext_next (by rwa [h.cfg]) hfit
  obtain ⟨arms, hcommands, hlengths⟩ := h.commands
  obtain ⟨addr, hnew⟩ := armInNext_arms ht
  have heng := armInNext_eng ht
  refine ⟨t, ht, ⟨?_, ?_, arms ++ [.armIn addr (armedLength u.eng.xfer.remaining)], ?_, ?_⟩, ?_⟩
  · exact (armInNext_effect ht).outside.1.trans h.cfg
  · rw [heng, ← h.xfer]
  · rw [hnew, hcommands, List.append_assoc]
  · rw [h.xfer, armedLength_bytesLeft, List.range_succ, List.map_append, ← hlengths]
    simp [armInLengths]
  · rw [heng, h.xfer]

/-- Every completion takes its packet from the count. -/
theorem InStage.inCompletion_eq (h : InStage a len s j u) (hlim : a + len.toNat < addrLimit s.cfg) (hj : 64 * j ≤ len.toNat) :
    inCompletion u = inNext (u.setXfer
      ⟨a + 64 * j + min (len.toNat - 64 * j) 64, bytesLeft len (j + 1),
        decide (j < len.toNat / 64 ∧ len.toNat % 64 = 0)⟩) := by
  have hcount := reportedCount_bytesLeft len j
  have hdata : u.eng.phase = .inData ∨ u.eng.phase = .lastInData := by rw [h.phase]; exact phaseForRemaining_data _
  rw [inCompletion, exec_inDone_data hdata, inAdvance_eq (reportedCount_toNat u.eng.xfer.remaining).le]
  · simp only [h.xfer, bytesLeft_sub, hcount]
  · simp only [h.xfer, h.cfg, hcount]
    omega

/-- After a full packet the next one is armed. -/
theorem InStage.inCompletion_full (h : InStage a len s j u) (hc : configOk s.cfg = true) (hlim : a + len.toNat < addrLimit s.cfg)
    (hj : j < len.toNat / 64) : ∃ t, inCompletion u = .next t ∧ InStage a len s (j + 1) t := by
  have hmore : bytesLeft len (j + 1) ≠ 0#16 ↔ 64 * (j + 1) < len.toNat := bytesLeft_ne_zero_iff
  rw [h.inCompletion_eq hlim (by omega), inNext_arms]
  · refine InSent.exists_armed ⟨h.cfg, ?_, h.commands⟩ hc hlim (by omega)
    have hbuffer : a + 64 * j + min (len.toNat - 64 * j) 64 = a + 64 * (j + 1) := by omega
    have hzlp : (64 * (j + 1) < len.toNat ∧ j < len.toNat / 64 ∧ len.toNat % 64 = 0) ↔
      (j + 1 < len.toNat / 64 ∧ len.toNat % 64 = 0) := by omega
    simp only [State.setXfer_eng, hmore, hbuffer, ← Bool.decide_and, hzlp]
  · simp only [State.setXfer_eng, hmore, decide_eq_true_eq]
    omega

/-- After the last packet nothing is left and the status stage is entered. -/
theorem InStage.inCompletion_last (h : InStage a len s (len.toNat / 64) u) (hlim : a + len.toNat < addrLimit s.cfg) :
    ∃ t, inCompletion u = .next (statusOut t) ∧ t.cfg = s.cfg ∧ t.commands = u.commands := by
  have hzero : bytesLeft len (len.toNat / 64 + 1) = 0#16 := not_not.mp (mt bytesLeft_ne_zero_iff.mp (by omega))
  rw [h.inCompletion_eq hlim (by omega)]
  exact ⟨_, inNext_done hzero (by simp), h.cfg, rfl⟩

end InTransfer

/-- After `j` completions, no more than there are full packets. -/
theorem fullIn_stage {a : Nat} {dataLen requested : HWord} {s : State} {j : Nat} (hc : configOk s.cfg = true)
    (hz : s.cfg.zeroLenSend = .oneZlp) (hlim : a + (clampLength dataLen requested).toNat < addrLimit s.cfg)
    (hj : j ≤ (clampLength dataLen requested).toNat / 64) :
    ∃ u, thenDo (send a dataLen requested s) (fullIn j) = .next u ∧ InStage a (clampLength dataLen requested) s j u := by
  induction j with
  | zero =>
    obtain ⟨u, hu, hstage⟩ := (loadSend_inSent a (clampLength dataLen requested) s).exists_armed hc hlim (Nat.zero_le _)
    exact ⟨u, by rw [send_oneZlp hz, hu]; rfl, hstage⟩
  | succ j ih =>
    obtain ⟨u, hu, hstage⟩ := ih (by omega)
    rw [thenDo_fullIn_succ, hu, thenDo_next]
    exact hstage.inCompletion_full hc hlim hj

/-- Settles O46: the completions of full packets arm the packets of the table, that of the last one enters the status stage. -/
theorem inTransferSendsItsPacketsThenTheStatusStage : Obligations.InTransferSendsItsPacketsThenTheStatusStage := by
  rintro a dataLen requested len s hc ⟨harm, -, -, -, hz⟩ hlen hlim
  obtain rfl : len = clampLength dataLen requested := BitVec.eq_of_toNat_eq (by rw [hlen, clampLength_toNat])
  constructor
  · intro j hj
    obtain ⟨u, hu, hstage⟩ := fullIn_stage hc hz hlim hj
    obtain ⟨arms, hcommands, hlengths⟩ := hstage.commands
    refine ⟨u, arms, hu, hcommands, by rw [hlengths, packetLengths hj], ?_, ?_⟩
    · rw [hstage.phase]
      split
      · exact phaseForRemaining_full (by rw [bytesLeft_toNat]; omega)
      · exact phaseForRemaining_short (by rw [bytesLeft_toNat]; omega)
    · rintro rfl
      rw [hstage.xfer]
      exact decide_eq_decide.mpr (by omega)
  · obtain ⟨u, hu, hstage⟩ := fullIn_stage hc hz hlim le_rfl
    obtain ⟨arms, hcommands, hlengths⟩ := hstage.commands
    obtain ⟨t, ht, hcfg, htcommands⟩ := hstage.inCompletion_last hlim
    rw [packetLengths le_rfl, if_neg (lt_irrefl _)] at hlengths
    refine ⟨statusOut t, arms, by rw [thenDo_fullIn_succ, hu, thenDo_next, ht], ?_, ?_, hlengths, ?_⟩
    · rw [statusOut_eq]
    · rw [statusOut_eq, hcfg, harm, ← hcommands, ← htcommands]
      rfl
    · rw [hlengths, count_nonempty_packets]

end Sys2Proof.Machine
end

/-! ## The standard requests -/

section
namespace Sys2Proof.Machine

open Sys2Proof

/-! ### The beginning of a request (40_control_state_machine.md rule R111) -/

@[simp] theorem beginRequest_cfg (k : RequestKind) (value index length : HWord) (s : State) :
    (beginRequest k value index length s).cfg = s.cfg := rfl

/-! ### A SETUP step that sends nothing (rules R113, R160, R161) -/

/-- A SETUP step whose first lines are followed by `ack`. -/
theorem ack_beginSetup (q : Req) (s : State) : ack (beginSetup q s) = s.requestAcked q := by
  rw [ack_eq, beginSetup_eq]
  rfl

/-- The same with both halves stalled before the acknowledgement (93_implementation_defined.md U11, `stall_on_set`). -/
theorem ack_stalled_beginSetup (q : Req) (s : State) :
    ack (((beginSetup q s).emit .stallIn).emit .stallOut) =
      s.requestEnded q .waitStatusIn [.stallIn, .stallOut, .armIn none 0] := by
  rw [ack_eq, beginSetup_eq]
  simp only [State.emit, State.emitted, List.append_assoc]
  rfl

/-- Settles O25: the operand is the low seven bits, and the two commands are emitted one after the other. -/
theorem setAddressTakesSevenBitsAndAcknowledges : Obligations.SetAddressTakesSevenBitsAndAcknowledges := by
  intro value index length s
  have hoperand : addressOperand value = value.setWidth 7 := (BitVec.setWidth_eq_extractLsb' (by decide)).symm
  rw [exec, execSetAddress, hoperand, ack_eq]
  simp only [beginRequest, beginSetup_eq, State.emit, State.emitted, List.append_assoc]
  rfl

/-- Settles O26: the operand is the low byte. -/
theorem setConfigurationStoresTheLowByteAndAcknowledges : Obligations.SetConfigurationStoresTheLowByteAndAcknowledges := by
  intro value index length s
  have hoperand : configOperand value = value.setWidth 8 := (BitVec.setWidth_eq_extractLsb' (by decide)).symm
  rw [exec, execSetConfiguration, hoperand, ack_eq]
  rfl

/-! ### The index test of the endpoint requests (93_implementation_defined.md U10) -/

theorem badEndpointIndex_iff {mask index : HWord} : badEndpointIndex mask index = true ↔ index &&& mask ≠ 0#16 := bne_iff_ne

theorem and_fullMask (index : HWord) : index &&& 0xFFFF#16 = index := BitVec.and_allOnes

/-- The mask 0xFF7F leaves bit 7 alone, so it passes both numberings of endpoint 0. -/
theorem and_directionMask_eq_zero_iff {index : HWord} :
    index &&& 0xFF7F#16 = 0#16 ↔ index = 0#16 ∨ index = 0x0080#16 := by
  constructor
  · intro hmask
    have hbit : index &&& 0x0080#16 = index := by
      calc index &&& 0x0080#16 = index &&& 0xFF7F#16 ||| index &&& 0x0080#16 := by rw [hmask, BitVec.zero_or]
        _ = index &&& 0xFFFF#16 := by rw [← BitVec.and_or_distrib_left]; rfl
        _ = index := and_fullMask index
    have htwoPow : index &&& 0x0080#16 = if index.getLsbD 7 then 0x0080#16 else 0#16 := BitVec.and_twoPow index 7
    rw [← hbit, htwoPow]
    split
    · exact .inr rfl
    · exact .inl rfl
  · rintro (rfl | rfl) <;> decide

/-! ### CLEAR_FEATURE and SET_FEATURE (rules R165, R166; 93_implementation_defined.md U11) -/

section Features

variable {value index length : HWord} {s : State}

theorem featureError_eq_none_iff {c : Config} :
    featureError c value index = none ↔
      index &&& c.epIndexMask = 0#16 ∧ value = 0#16 ∧ c.featureHaltEffect ≠ .alwaysError := by
  simp only [featureError, badEndpointIndex_iff]
  split_ifs with hindex hvalue heffect
  · simp [hindex]
  · simp [hvalue]
  · simp [heffect]
  · simp [not_not.mp hindex, not_not.mp hvalue, heffect]

theorem featureError_of_invalid {c : Config}
    (h : index &&& c.epIndexMask ≠ 0#16 ∨ value ≠ 0#16 ∨ c.featureHaltEffect = .alwaysError) :
    ∃ cause, featureError c value index = some cause := by
  refine Option.ne_none_iff_exists'.mp fun hnone => ?_
  obtain ⟨hindex, hvalue, heffect⟩ := featureError_eq_none_iff.mp hnone
  rcases h with h | h | h
  · exact h hindex
  · exact h hvalue
  · exact heffect h

theorem exec_clearFeature_error {cause : ErrorCause} (h : featureError s.cfg value index = some cause) :
    exec (.clearFeatureEndpoint value index length) s = .next (s.requestStalled ⟨0x0102#16, value, index, length⟩) := by
  simp only [exec, execClearFeatureEndpoint, beginRequest_cfg, h]
  exact congrArg Host.Outcome.next (error_beginSetup cause _ s)

theorem exec_clearFeature_valid (h : featureError s.cfg value index = none) :
    exec (.clearFeatureEndpoint value index length) s = .next (s.requestAcked ⟨0x0102#16, value, index, length⟩) := by
  simp only [exec, execClearFeatureEndpoint, beginRequest_cfg, h]
  exact congrArg Host.Outcome.next (ack_beginSetup _ s)

theorem exec_setFeature_error {cause : ErrorCause} (h : featureError s.cfg value index = some cause) :
    exec (.setFeatureEndpoint value index length) s = .next (s.requestStalled ⟨0x0302#16, value, index, length⟩) := by
  simp only [exec, execSetFeatureEndpoint, beginRequest_cfg, h]
  exact congrArg Host.Outcome.next (error_beginSetup cause _ s)

/-- With `stall_on_set` the two stalls come before the acknowledgement. -/
theorem exec_setFeature_valid (h : featureError s.cfg value index = none) :
    exec (.setFeatureEndpoint value index length) s = .next
      (s.requestEnded ⟨0x0302#16, value, index, length⟩ .waitStatusIn
        (if s.cfg.featureHaltEffect = .stallOnSet then [.stallIn, .stallOut, .armIn none 0] else [.armIn none 0])) := by
  by_cases heffect : s.cfg.featureHaltEffect = .stallOnSet
  · simp only [exec, execSetFeatureEndpoint, beginRequest_cfg, h, heffect, if_true]
    exact congrArg Host.Outcome.next (ack_stalled_beginSetup _ s)
  · simp only [exec, execSetFeatureEndpoint, beginRequest_cfg, h, heffect, if_false]
    exact congrArg Host.Outcome.next (ack_beginSetup _ s)

end Features

/-! ### A SETUP step that sends (rules R112, R168) -/

section Sending

variable {q : Req} {s : State}

/-- A reply sent after the first lines of a SETUP step and calls of the Firmware-Update Engine. -/
theorem reply_built {bs : List Byte} {cs : List FwCall} (hw : Memory.wf s.mem = true) (hc : configOk s.cfg = true)
    (hz : s.cfg.zeroLenSend = .oneZlp) (hl : 1 ≤ bs.length) (hl' : bs.length ≤ 8) :
    ∃ t, reply bs q.length { beginSetup q s with calls := s.calls ++ cs } = .next t ∧ ReplyBuilt s t q bs cs :=
  reply_sent (s := { beginSetup q s with calls := s.calls ++ cs }) hw hc hz hl hl' q.length

/-- A reply that needs no call. -/
theorem reply_beginSetup {bs : List Byte} (hw : Memory.wf s.mem = true) (hc : configOk s.cfg = true)
    (hz : s.cfg.zeroLenSend = .oneZlp) (hl : 1 ≤ bs.length) (hl' : bs.length ≤ 8) :
    ∃ t, reply bs q.length (beginSetup q s) = .next t ∧ ReplyBuilt s t q bs [] := by
  have hbuilt := reply_built (q := q) (cs := []) hw hc hz hl hl'
  rwa [List.append_nil] at hbuilt

theorem clampLength_ofNat {n : Nat} (hn : n < 2 ^ 16) (requested : HWord) :
    clampLength (BitVec.ofNat 16 n) requested = BitVec.ofNat 16 (min n requested.toNat) := by
  apply BitVec.eq_of_toNat_eq
  rw [clampLength_toNat, BitVec.toNat_ofNat, BitVec.toNat_ofNat, Nat.mod_eq_of_lt hn, Nat.mod_eq_of_lt (by omega)]

/-- `n` bytes sent after the first lines of a SETUP step. -/
theorem send_beginSetup {a n : Nat} (hw : Memory.wf s.mem = true) (hc : configOk s.cfg = true) (hd : s.cfg.decided)
    (hn : n < 2 ^ 16) (hfit : a % s.cfg.align = 0 ∨ a + min (min n q.length.toNat) 64 ≤ 2 ^ s.cfg.addrW) :
    ∃ t, send a (BitVec.ofNat 16 n) q.length (beginSetup q s) = .next t ∧
      ReplySent s t q a (BitVec.ofNat 16 (min n q.length.toNat)) := by
  obtain ⟨-, -, -, hst, hz⟩ := hd
  rw [← clampLength_ofNat hn]
  refine send_armed (s := beginSetup q s) hw hc (stagesTransfer_all hst) (.inl hz) ?_
  rwa [BitVec.toNat_ofNat, Nat.mod_eq_of_lt hn]

/-- A first packet staged from outside the address space has no outcome (20_memory.md rule R62). -/
theorem send_outside {a : Nat} {dataLen requested : HWord} (hst : s.cfg.stageLongUnaligned = true)
    (ha : a % s.cfg.align ≠ 0) (hin : a < addrLimit s.cfg)
    (hout : addrLimit s.cfg < a + min (min dataLen.toNat requested.toNat) 64) :
    send a dataLen requested s = .fault .addrRange := by
  rw [← clampLength_toNat] at hout
  have hne : clampLength dataLen requested ≠ 0#16 := by
    intro hempty
    rw [hempty, BitVec.toNat_ofNat, Nat.zero_mod] at hout
    omega
  rw [send_nonempty hne]
  exact armInNext_outside (s := loadSend a _ s) (stagesTransfer_all hst) ha hne hout

end Sending

/-! ### GET_CONFIGURATION and the two forms of GET_STATUS (rules R162 to R164) -/

/-- Settles O32: both replies are one `reply` after the first lines of the step. -/
theorem configurationAndDeviceStatusAreReplied : Obligations.ConfigurationAndDeviceStatusAreReplied := by
  intro value index length s hw hc hz
  have hlow : loByte s.cfg.deviceStatus = s.cfg.deviceStatus.setWidth 8 := (BitVec.setWidth_eq_extractLsb' (by decide)).symm
  have hhigh : hiByte s.cfg.deviceStatus = (s.cfg.deviceStatus >>> 8).setWidth 8 :=
    BitVec.setWidth_ushiftRight_eq_extractLsb.symm
  rw [← hlow, ← hhigh]
  exact ⟨reply_beginSetup (q := ⟨0x0880#16, value, index, length⟩) (bs := [s.eng.config]) hw hc hz (by simp) (by simp),
    reply_beginSetup (q := ⟨0x0080#16, value, index, length⟩) (bs := bytesLe16 s.cfg.deviceStatus) hw hc hz
      (by simp [bytesLe16]) (by simp [bytesLe16])⟩

theorem exec_getStatusEndpoint_bad {value index length : HWord} {s : State} (h : index &&& s.cfg.epIndexMask ≠ 0#16) :
    exec (.getStatusEndpoint value index length) s = .next (s.requestStalled ⟨0x0082#16, value, index, length⟩) := by
  rw [← error_beginSetup .badIndex]
  exact if_pos (badEndpointIndex_iff.mpr h)

theorem exec_getStatusEndpoint_good {value index length : HWord} {s : State} (h : index &&& s.cfg.epIndexMask = 0#16) :
    exec (.getStatusEndpoint value index length) s =
      reply (endpointStatus s.answers.inHalted) length (beginSetup ⟨0x0082#16, value, index, length⟩ s) :=
  if_neg fun hbad => badEndpointIndex_iff.mp hbad h

/-- Settles O28: the three requests share the index test, and the two of `ENDPOINT_HALT` the test of the form. -/
theorem endpointFeaturesUnderTheOtherReadings : Obligations.EndpointFeaturesUnderTheOtherReadings := by
  refine fun value index length s => ⟨fun hinvalid => ?_, fun hindex hvalue heffect => ?_, exec_getStatusEndpoint_bad,
    fun hindex hw hc hz => ?_, fun hmask => ?_⟩
  · obtain ⟨cause, hcause⟩ := featureError_of_invalid hinvalid
    exact ⟨exec_setFeature_error hcause, exec_clearFeature_error hcause⟩
  · have hvalid := featureError_eq_none_iff.mpr ⟨hindex, hvalue, heffect⟩
    exact ⟨exec_setFeature_valid hvalid, exec_clearFeature_valid hvalid⟩
  · rw [exec_getStatusEndpoint_good hindex]
    exact reply_beginSetup (q := ⟨0x0082#16, value, index, length⟩) (bs := endpointStatus s.answers.inHalted) hw hc hz
      (by simp [endpointStatus]) (by simp [endpointStatus])
  · rw [hmask]
    exact and_directionMask_eq_zero_iff

/-- Settles O27: the decided readings compare the whole index and add no effect. -/
theorem endpointFeaturesAcknowledgeOnlyHaltOfEndpointZero :
    Obligations.EndpointFeaturesAcknowledgeOnlyHaltOfEndpointZero := by
  rintro value index length s ⟨-, heffect, hmask, -, -⟩
  obtain ⟨herror, hack, -⟩ := endpointFeaturesUnderTheOtherReadings value index length s
  rw [hmask, and_fullMask, heffect] at herror hack
  refine ⟨fun ⟨hindex, hvalue⟩ => (hack hindex hvalue (by decide)).symm, fun hinvalid => (herror ?_).symm⟩
  exact hinvalid.imp_right .inl

/-- Settles O33: the mask 0xFFFF compares the whole index. -/
theorem endpointStatusRepliesTheHaltBit : Obligations.EndpointStatusRepliesTheHaltBit := by
  rintro value index length s hw hc ⟨-, -, hmask, -, hz⟩
  obtain ⟨-, -, hbad, hgood, -⟩ := endpointFeaturesUnderTheOtherReadings value index length s
  rw [hmask, and_fullMask] at hbad hgood
  exact ⟨hbad, fun hindex => hgood hindex hw hc hz⟩

/-! ### GET_DESCRIPTOR (rule R167) -/

section Descriptors

variable {table pre post : List DescEntry} {e : DescEntry} {selector value index length : HWord} {s : State}

theorem findDescriptor_eq_none (h : ∀ e ∈ table, e.selector ≠ selector) : findDescriptor table selector = none :=
  List.find?_eq_none.mpr fun e he => by simpa using h e he

theorem findDescriptor_first (he : e.selector = selector) (hpre : ∀ d ∈ pre, d.selector ≠ selector) :
    findDescriptor (pre ++ e :: post) selector = some e :=
  List.find?_eq_some_iff_append.mpr ⟨by simpa using he, pre, post, rfl, fun d hd => by simpa using hpre d hd⟩

theorem isStringEntry_iff : isStringEntry e = true ↔ e.selector.toNat / 256 = 3 := by
  have hlt := e.selector.isLt
  have hhigh : (hiByte e.selector).toNat = e.selector.toNat / 256 := by
    rw [hiByte, BitVec.extractLsb'_toNat, Nat.shiftRight_eq_div_pow]
    omega
  rw [isStringEntry, beq_iff_eq, ← BitVec.toNat_inj, hhigh]
  rfl

/-- The length of an entry in bytes (30_encoding.md rule R86). -/
def entryBytes (m : Memory) (e : DescEntry) : Nat :=
  if e.selector.toNat / 256 = 3 then (Memory.read m e.data).toNat else e.length.toNat

theorem entryBytes_lt (m : Memory) (e : DescEntry) : entryBytes m e < 2 ^ 16 := by
  have hbyte := (Memory.read m e.data).isLt
  have hstored := e.length.isLt
  unfold entryBytes
  split <;> omega

theorem reportedLength_eq (hdata : e.data < addrLimit s.cfg) :
    reportedLength e s = .ok (BitVec.ofNat 16 (entryBytes s.mem e)) := by
  have hread : memRead s e.data 1 = .ok (Memory.readBytes s.mem e.data 1) := memRead_of_fits (Nat.succ_le_of_lt hdata)
  simp only [reportedLength, entryBytes, isStringEntry_iff, hread]
  split
  · rw [BitVec.ofNat_toNat]
    rfl
  · rw [BitVec.ofNat_toNat, BitVec.setWidth_eq]

theorem exec_getDescriptor_none (h : findDescriptor s.cfg.descTable value = none) :
    exec (.getDescriptor value index length) s = .next (s.requestStalled ⟨0x0680#16, value, index, length⟩) := by
  simp only [exec, execGetDescriptor, beginRequest_cfg, h]
  exact congrArg Host.Outcome.next (error_beginSetup .noDescriptor _ s)

theorem exec_getDescriptor_some (h : findDescriptor s.cfg.descTable value = some e) (hdata : e.data < addrLimit s.cfg) :
    exec (.getDescriptor value index length) s =
      send e.data (BitVec.ofNat 16 (entryBytes s.mem e)) length (beginSetup ⟨0x0680#16, value, index, length⟩ s) := by
  have hlen : reportedLength e (beginRequest .getDescriptor value index length s) = .ok (BitVec.ofNat 16 (entryBytes s.mem e)) :=
    reportedLength_eq hdata
  simp only [exec, execGetDescriptor, beginRequest_cfg, h, hlen, orFault_ok]
  rfl

end Descriptors

/-- Settles O35: the first match is found, its length is what R86 says, and `send` stages the first packet or leaves the space. -/
theorem getDescriptorSendsTheFirstMatchingEntry : Obligations.GetDescriptorSendsTheFirstMatchingEntry := by
  intro value index length s hw hc hd
  refine ⟨fun hnone => exec_getDescriptor_none (findDescriptor_eq_none hnone), ?_⟩
  rintro pre post e n htable rfl hpre rfl
  obtain ⟨hdata, -⟩ := configOk_entry hc (show e ∈ s.cfg.descTable by simp [htable])
  have hfind : findDescriptor s.cfg.descTable e.selector = some e := by rw [htable]; exact findDescriptor_first rfl hpre
  have hlt := entryBytes_lt s.mem e
  rw [exec_getDescriptor_some hfind hdata]
  refine ⟨fun hfit => send_beginSetup (q := ⟨0x0680#16, e.selector, index, length⟩) hw hc hd hlt hfit, fun ha hout => ?_⟩
  obtain ⟨-, -, -, hst, -⟩ := hd
  refine send_outside (s := beginSetup _ s) hst ha hdata ?_
  rwa [BitVec.toNat_ofNat, Nat.mod_eq_of_lt hlt]

end Sys2Proof.Machine
end

/-! ## The vendor request -/

section
namespace Sys2Proof.Machine

open Sys2Proof

/-! ### MS_OS_DESCRIPTOR (rule R180) -/

section MsOsDescriptor

variable {value index length : HWord} {s : State}

theorem exec_msOsDescriptor_bad (h : index ≠ s.cfg.msftIndex) :
    exec (.msOsDescriptor value index length) s =
      .next (s.requestStalled ⟨s.cfg.msftVendorCode ++ 0xC0#8, value, index, length⟩) := by
  rw [← error_beginSetup .badIndex]
  exact if_pos h

theorem exec_msOsDescriptor_good (h : index = s.cfg.msftIndex) :
    exec (.msOsDescriptor value index length) s =
      send s.cfg.msOsData s.cfg.msOsLength length
        (beginSetup ⟨s.cfg.msftVendorCode ++ 0xC0#8, value, index, length⟩ s) :=
  if_neg (not_not_intro h)

/-- What is sent of `MS_OS_DESC` lies in the address space, the described bytes being a region (20_memory.md rule R50). -/
theorem msOsPacket_fits {c : Config} (hc : configOk c = true) (requested : HWord) :
    c.msOsData + min (min c.msOsLength.toNat requested.toNat) 64 ≤ addrLimit c := by
  obtain ⟨-, hregion⟩ := configOk_msOs hc
  omega

end MsOsDescriptor

/-- Settles O36: the index is tested before anything is sent, and the first packet of the described bytes always lies in the
address space. -/
theorem msOsDescriptorIsSentForItsIndex : Obligations.MsOsDescriptorIsSentForItsIndex := by
  refine fun value index length s hw hc hd => ⟨exec_msOsDescriptor_bad, fun hindex => ?_⟩
  have hsent := send_beginSetup (q := ⟨s.cfg.msftVendorCode ++ 0xC0#8, value, index, length⟩) hw hc hd
    s.cfg.msOsLength.isLt (.inr (msOsPacket_fits hc length))
  rw [BitVec.ofNat_toNat, BitVec.setWidth_eq] at hsent
  rwa [exec_msOsDescriptor_good hindex]

end Sys2Proof.Machine
end

/-! ## The DFU requests -/

section
namespace Sys2Proof.Machine

open Sys2Proof

/-! ### The index test and the answer of the Firmware-Update Engine (44_dfu_requests.md)

Each of the five requests tests `index` first, before any call; what the test leaves through makes at most one call. -/

section Answered

variable {q : Req} {s : State} {index : HWord}

theorem indexTest_bad {r : Result} (h : index ≠ 0#16) :
    (if index ≠ 0#16 then .next (error .badIndex (beginSetup q s)) else r) = .next (s.requestStalled q) := by
  rw [if_pos h, error_beginSetup]

/-- The call made before `error` is kept: it is no part of what `error` writes (40_control_state_machine.md rule R114). -/
theorem error_addCall_beginSetup (c : ErrorCause) (call : FwCall) :
    error c ((beginSetup q s).addCall call) = { s.requestStalled q with calls := s.calls ++ [call] } := by
  rw [← error_beginSetup c]
  rfl

theorem ack_addCall_beginSetup (call : FwCall) :
    ack ((beginSetup q s).addCall call) = { s.requestAcked q with calls := s.calls ++ [call] } := by
  rw [← ack_beginSetup]
  rfl

/-- One call is made and its answer decides (rules R185, R187, R189). -/
theorem ackOrError_addCall_beginSetup (accepted : Bool) (c : ErrorCause) (call : FwCall) :
    ackOrError accepted c ((beginSetup q s).addCall call) =
      { if accepted then s.requestAcked q else s.requestStalled q with calls := s.calls ++ [call] } := by
  cases accepted
  · exact error_addCall_beginSetup c call
  · exact ack_addCall_beginSetup call

end Answered

/-! ### DFU_GETSTATUS and DFU_GETSTATE (rules R186, R188) -/

section Replied

variable {value length : HWord} {s : State}

@[simp] theorem beginRequest_answers (k : RequestKind) (value index length : HWord) (s : State) :
    (beginRequest k value index length s).answers = s.answers := rfl

theorem exec_dfuGetstatus_none (h : s.answers.getStatus = none) :
    exec (.dfuGetstatus value 0#16 length) s =
      .next { s.requestStalled ⟨0x03A1#16, value, 0#16, length⟩ with calls := s.calls ++ [.getStatus] } := by
  simp only [exec, execDfuGetstatus, ne_eq, not_true_eq_false, if_false, beginRequest_answers, h]
  exact congrArg Host.Outcome.next (error_addCall_beginSetup .fwRejected .getStatus)

theorem exec_dfuGetstatus_some {st : DfuStatus} (h : s.answers.getStatus = some st) :
    exec (.dfuGetstatus value 0#16 length) s =
      reply (statusBytes st) length ((beginSetup ⟨0x03A1#16, value, 0#16, length⟩ s).addCall .getStatus) := by
  simp only [exec, execDfuGetstatus, ne_eq, not_true_eq_false, if_false, beginRequest_answers, h]
  rfl

end Replied

/-- Settles O34: the index test comes first; GETSTATUS goes by what the call returned, and both replies are one `reply` after
the first lines of the step and the call. -/
theorem dfuStatusAndStateAreReplied : Obligations.DfuStatusAndStateAreReplied := by
  refine fun value index length s hw hc hz => ⟨fun hindex => ⟨indexTest_bad hindex, indexTest_bad hindex⟩, ?_, ?_, ?_⟩
  · rintro rfl hnone
    exact exec_dfuGetstatus_none hnone
  · rintro st rfl hsome
    rw [exec_dfuGetstatus_some hsome]
    exact reply_built (q := ⟨0x03A1#16, value, 0#16, length⟩) (bs := statusBytes st) hw hc hz
      (by simp [statusBytes]) (by simp [statusBytes])
  · rintro rfl
    exact reply_built (q := ⟨0x05A1#16, value, 0#16, length⟩) (bs := [s.answers.getState]) hw hc hz (by simp) (by simp)

/-! ### DFU_CLRSTATUS and DFU_ABORT (rules R187, R189) -/

/-- Settles O30: the index test comes before the call, whose answer decides. -/
theorem clrstatusAndAbortFollowTheAnswer : Obligations.ClrstatusAndAbortFollowTheAnswer := by
  refine fun value index length s => ⟨fun hindex => ⟨indexTest_bad hindex, indexTest_bad hindex⟩, ?_⟩
  rintro rfl
  exact ⟨congrArg Host.Outcome.next (ackOrError_addCall_beginSetup s.answers.clearStatus .fwRejected .clearStatus),
    congrArg Host.Outcome.next (ackOrError_addCall_beginSetup s.answers.abort .fwRejected .abort)⟩

/-! ### DFU_DNLOAD (rule R185) -/

section DnloadRequest

variable {value length : HWord} {s : State}

/-- The end of the download. -/
theorem exec_dfuDnload_empty :
    exec (.dfuDnload value 0#16 0#16) s = .next
      { if s.answers.download then s.requestAcked ⟨0x0121#16, value, 0#16, 0#16⟩
        else s.requestStalled ⟨0x0121#16, value, 0#16, 0#16⟩ with
        calls := s.calls ++ [.download value 0#16 0#16 0#16 none []] } :=
  congrArg Host.Outcome.next (ackOrError_addCall_beginSetup s.answers.download .dnloadRejected _)

/-- A packet that does not fit `RXBUF` has no outcome (20_memory.md rule R62). -/
theorem recv_overrun {buffer : Nat} (hne : length ≠ 0#16)
    (hout : s.cfg.rxbufBase + s.cfg.rxBufSize < buffer + armedLength length) :
    recv buffer length s = .fault .rxbufOverrun := by
  rw [recv, armOut_overrun (s := s.setXfer ⟨buffer, length, false⟩) (mt armedLength_eq_zero.mp hne) (.inr hout)]
  rfl

end DnloadRequest

/-- Settles O31: index, then length; a packet that starts at `RXBUF_BASE` fits exactly when `RXBUF` has room for its length. -/
theorem dnloadEndsTheBlockOrArmsTheReceiveBuffer : Obligations.DnloadEndsTheBlockOrArmsTheReceiveBuffer := by
  refine fun value index length s => ⟨fun hindex => indexTest_bad hindex, ?_, ?_, ?_⟩
  · rintro rfl rfl
    exact exec_dfuDnload_empty
  · rintro rfl hne hroom
    have hrecv := recv_armed (s := beginRequest .dfuDnload value 0#16 length s) hne le_rfl (Nat.add_le_add_left hroom _)
    exact (exec_dfuDnload_recv hne).trans hrecv
  · rintro rfl hne hout
    rw [exec_dfuDnload_recv hne]
    exact recv_overrun (s := beginRequest .dfuDnload value 0#16 length s) hne (Nat.add_lt_add_left hout _)

end Sys2Proof.Machine
end

/-! ## The exceptions: the fatal trap, and the host's moves at the reference transport -/

section
namespace Sys2Proof.Machine

open Sys2Proof

/-! ### The fatal trap (60_exceptions.md rule R204) -/

section FatalTrap

variable {ep : EpNum} {n : HWord} {s : State}

theorem exec_inDone_nonzeroEndpoint (h : ep ≠ 0#4) : exec (.eventInDone ep n) s = .next (fatalTrap .nonzeroEp s) :=
  if_pos h

theorem exec_outDone_nonzeroEndpoint (h : ep ≠ 0#4) : exec (.eventOutDone ep n) s = .next (fatalTrap .nonzeroEp s) :=
  if_pos h

end FatalTrap

/-- Settles O14: the endpoint is tested before the phase, and `step` tests the flag before it looks for a turn. -/
theorem nonzeroEndpointTakesTheFatalTrap : Obligations.NonzeroEndpointTakesTheFatalTrap :=
  fun _ _ _ hep => ⟨exec_inDone_nonzeroEndpoint hep, exec_outDone_nonzeroEndpoint hep, fun hc => step_fatal hc rfl⟩

/-! ### A SETUP packet (rule R216 (1), 30_encoding.md rule R81) -/

/-- Only the newest pending event decides whether a SETUP packet joins; the earlier ones stay as they are. -/
theorem joinSetup_concat (r : Record) (earlier : List Event) (e : Event) :
    joinSetup r (earlier ++ [e]) = (joinSetup r [e]).map (earlier ++ ·) := by
  induction earlier with
  | nil => simp
  | cons d es ih =>
    have hcons : joinSetup r (d :: (es ++ [e])) = (joinSetup r (es ++ [e])).map (d :: ·) := by
      rw [joinSetup]
      · cases joinSetup r (es ++ [e]) <;> rfl
      · simp
    rw [List.cons_append, hcons, ih, Option.map_map]
    rfl

section SetupPacket

variable {r : Record} {recs : List Record} {earlier : List Event} {s : State}

theorem joinSetup_room (h : recs.length < 3) :
    joinSetup r (earlier ++ [.setup recs]) = some (earlier ++ [.setup (recs ++ [r])]) := by
  simp [joinSetup_concat, joinSetup, h]

theorem joinSetup_full (h : 3 ≤ recs.length) : joinSetup r (earlier ++ [.setup recs]) = none := by
  simp [joinSetup_concat, joinSetup, Nat.not_lt.mpr h]

theorem joinSetup_of_newest_not_setup {es : List Event} (h : ∀ recs, es.getLast? ≠ some (.setup recs)) :
    joinSetup r es = none := by
  rcases List.eq_nil_or_concat es with rfl | ⟨earlier, e, rfl⟩
  · rfl
  · cases e with
    | setup recs => exact absurd (by simp) (h recs)
    | _ => simp [joinSetup_concat, joinSetup]

/-- The packets that join are those that `joinSetup_room` describes. -/
theorem joinSetup_eq_some {es es' : List Event} (h : joinSetup r es = some es') :
    ∃ earlier recs, es = earlier ++ [.setup recs] ∧ recs.length < 3 ∧ es' = earlier ++ [.setup (recs ++ [r])] := by
  by_cases hsetup : ∃ recs, es.getLast? = some (.setup recs)
  · obtain ⟨recs, hlast⟩ := hsetup
    obtain ⟨earlier, rfl⟩ := List.getLast?_eq_some_iff.mp hlast
    by_cases hroom : recs.length < 3
    · exact ⟨earlier, recs, rfl, hroom, Option.some.inj (h.symm.trans (joinSetup_room hroom))⟩
    · cases h.symm.trans (joinSetup_full (Nat.not_lt.mp hroom))
  · cases h.symm.trans (joinSetup_of_newest_not_setup (not_exists.mp hsetup))

/-- `s` after a SETUP packet that left the SETUP event `recs` behind the events `earlier`: the armed packets are dropped
and both latches clear (rule R216 (1)). -/
def State.setupPending (s : State) (earlier : List Event) (recs : List Record) : State :=
  { s with pending := earlier ++ [.setup recs], port := ⟨false, none, none, false, false, s.port.address⟩ }

theorem hostSetup_joins (hp : s.pending = earlier ++ [.setup recs]) (h : recs.length < 3) :
    hostSetup r s = s.setupPending earlier (recs ++ [r]) := by
  rw [hostSetup, hp, joinSetup_room h]
  rfl

theorem hostSetup_opens (hj : joinSetup r s.pending = none) (harm : s.port.setupArmed = true) :
    hostSetup r s = s.setupPending s.pending [r] := by
  rw [hostSetup, hj]
  exact if_pos harm

/-- A SETUP packet that is not possible is no move (log entry 11). -/
theorem hostSetup_ignored (hj : joinSetup r s.pending = none) (harm : s.port.setupArmed = false) : hostSetup r s = s := by
  simp [hostSetup, hj, harm]

/-- What a SETUP packet can do: it joins the newest pending event, or opens an event of its own, or is not possible. -/
theorem hostSetup_cases (r : Record) (s : State) :
    (∃ earlier older, s.pending = earlier ++ [.setup older] ∧ older.length < 3 ∧
      hostSetup r s = s.setupPending earlier (older ++ [r])) ∨
    (s.port.setupArmed = true ∧ hostSetup r s = s.setupPending s.pending [r]) ∨
    (s.port.setupArmed = false ∧ hostSetup r s = s) := by
  cases hj : joinSetup r s.pending with
  | some es =>
    obtain ⟨earlier, older, hp, hroom, -⟩ := joinSetup_eq_some hj
    exact .inl ⟨earlier, older, hp, hroom, hostSetup_joins hp hroom⟩
  | none =>
    cases harm : s.port.setupArmed with
    | true => exact .inr (.inl ⟨rfl, hostSetup_opens hj harm⟩)
    | false => exact .inr (.inr ⟨rfl, hostSetup_ignored hj harm⟩)

end SetupPacket

/-- Settles O51: the newest pending event alone decides whether there is room to join. -/
theorem backToBackSetupPacketsJoinOneEvent : Obligations.BackToBackSetupPacketsJoinOneEvent := by
  refine fun earlier recs r s hp =>
    ⟨fun hroom => congrArg Host.Outcome.next (hostSetup_joins hp hroom), fun hfull harm => ?_⟩
  have hj : joinSetup r s.pending = none := by rw [hp, joinSetup_full hfull]
  exact congrArg Host.Outcome.next (hostSetup_ignored hj harm)

/-! ### An IN transaction (rule R216 (2), (4), (5)) -/

section InTransaction

variable {p : Armed} {bs : List Byte} {s t u : State}

theorem hostIn_stall (h : s.port.haltIn = true) : hostIn s = .next { s with wire := s.wire ++ [.stall] } := if_pos h

theorem hostIn_nak (h : s.port.haltIn = false) (hp : s.port.inArmed = none) :
    hostIn s = .next { s with wire := s.wire ++ [.nak] } := by
  simp [hostIn, h, hp, State.addWire]

/-- An armed packet is sent with the bytes that `inPayload` gives, and its completion becomes pending. -/
theorem hostIn_sends (h : s.port.haltIn = false) (hp : s.port.inArmed = some p) (hb : inPayload p s = .ok (bs, u)) :
    hostIn s = .next { u with
      wire := u.wire ++ [.data bs]
      pending := u.pending ++ [.inDone 0#4 (BitVec.ofNat 16 p.len)]
      port := { u.port with inArmed := none } } := by
  simp [hostIn, h, hp, hb, State.addWire, State.setPort, State.addPending]

theorem inPayload_aligned {a k : Nat} (ha : a % s.cfg.align = 0) (hfit : a + k ≤ addrLimit s.cfg) :
    inPayload ⟨some a, k⟩ s = .ok (Memory.readBytes s.mem a k, s) := by
  simp [inPayload, isAligned, ha, memRead_of_fits hfit]

theorem inPayload_pending (h : inPayload p s = .ok (bs, u)) : u.pending = s.pending := by
  unfold inPayload at h
  split at h
  · cases h; rfl
  · split at h
    · split at h
      · cases h; rfl
      · cases h
    · cases h; rfl

/-- What an IN transaction can make pending: nothing, or the completion of the armed packet. -/
theorem hostIn_pending (h : hostIn s = .next t) :
    t.pending = s.pending ∨ ∃ p, s.port.inArmed = some p ∧
      t.pending = s.pending ++ [.inDone 0#4 (BitVec.ofNat 16 p.len)] := by
  cases hhalt : s.port.haltIn with
  | true => cases (hostIn_stall hhalt).symm.trans h; exact .inl rfl
  | false =>
    cases hp : s.port.inArmed with
    | none => cases (hostIn_nak hhalt hp).symm.trans h; exact .inl rfl
    | some p =>
      simp only [hostIn, hhalt, hp, Bool.false_eq_true, if_false] at h
      obtain ⟨⟨bs, u⟩, hb, h⟩ := orFault_eq_next h
      have hu : u.pending = s.pending := inPayload_pending hb
      cases h
      exact .inr ⟨p, rfl, congrArg (· ++ [_]) hu⟩

end InTransaction

/-! ### An OUT transaction (rule R216 (3), (4), (5)) -/

section OutTransaction

variable {p : Armed} {bs : List Byte} {s t u : State}

theorem hostOut_stall (h : s.port.haltOut = true) : hostOut bs s = .next { s with wire := s.wire ++ [.stall] } := if_pos h

theorem hostOut_nak (h : s.port.haltOut = false) (hp : s.port.outArmed = none) :
    hostOut bs s = .next { s with wire := s.wire ++ [.nak] } := by
  simp [hostOut, h, hp, State.addWire]

/-- A packet longer than was armed is no move (log entry 11). -/
theorem hostOut_ignored (h : s.port.haltOut = false) (hp : s.port.outArmed = some p) (hlong : p.len < bs.length) :
    hostOut bs s = .next s := by
  simp [hostOut, h, hp, Nat.not_le.mpr hlong]

/-- The bytes of a packet that fits reach memory as `dmaWrite` says, and its completion becomes pending. -/
theorem hostOut_receives (h : s.port.haltOut = false) (hp : s.port.outArmed = some p) (hlen : bs.length ≤ p.len)
    (hw : dmaWrite p bs s = .ok u) :
    hostOut bs s = .next { u with
      pending := u.pending ++ [.outDone 0#4 (BitVec.ofNat 16 bs.length)]
      port := { u.port with outArmed := none } } := by
  simp [hostOut, h, hp, hlen, hw, State.setPort, State.addPending]

theorem dmaInWindow_outArmed (hp : s.port.outArmed = some p) : dmaInWindow bs s = dmaWrite p bs s := by
  rw [dmaInWindow, hp]

/-- What an OUT transaction can make pending: nothing, or the completion of the armed packet, which has room for its bytes. -/
theorem hostOut_pending (h : hostOut bs s = .next t) :
    t.pending = s.pending ∨ ∃ p, s.port.outArmed = some p ∧ bs.length ≤ p.len ∧
      t.pending = s.pending ++ [.outDone 0#4 (BitVec.ofNat 16 bs.length)] := by
  cases hhalt : s.port.haltOut with
  | true => cases (hostOut_stall hhalt).symm.trans h; exact .inl rfl
  | false =>
    cases hp : s.port.outArmed with
    | none => cases (hostOut_nak hhalt hp).symm.trans h; exact .inl rfl
    | some p =>
      by_cases hlen : bs.length ≤ p.len
      · simp only [hostOut, hhalt, hp, hlen, Bool.false_eq_true, if_false, if_true] at h
        obtain ⟨u, hw, h⟩ := orFault_eq_next h
        obtain ⟨m, rfl, -⟩ := dmaWrite_ok hw
        cases h
        exact .inr ⟨p, rfl, hlen, rfl⟩
      · cases (hostOut_ignored hhalt hp (Nat.not_le.mp hlen)).symm.trans h
        exact .inl rfl

end OutTransaction

/-! ### The obligations about every move -/

/-- A count is reported in 16 bits, which takes nothing above it. -/
theorem ofNat_toNat_le (k : Nat) : (BitVec.ofNat 16 k).toNat ≤ k := by
  rw [BitVec.toNat_ofNat]
  exact Nat.mod_le k _

/-- Settles O52: what each move can make pending; the engine's side is `hostMove_engineUntouched`. -/
theorem referenceTransportKeepsItsContract : Obligations.ReferenceTransportKeepsItsContract := by
  intro m s t h
  have hengine := hostMove_engineUntouched h
  refine ⟨hengine.eng, hengine.commands, hengine.calls, fun e he => ?_⟩
  cases m with
  | setupPacket r =>
    cases h
    rcases hostSetup_cases r s with ⟨earlier, older, hp, -, hs⟩ | ⟨-, hs⟩ | ⟨-, hs⟩ <;> rw [hs] at he
    · exact (List.mem_append.mp he).imp (fun hold => hp ▸ List.mem_append_left _ hold)
        fun hnew => .inl ⟨_, List.mem_singleton.mp hnew, by simp⟩
    · exact (List.mem_append.mp he).imp_right fun hnew => .inl ⟨_, List.mem_singleton.mp hnew, le_rfl⟩
    · exact .inl he
  | inToken =>
    rcases hostIn_pending h with ht | ⟨p, hp, ht⟩ <;> rw [ht] at he
    · exact .inl he
    · exact (List.mem_append.mp he).imp_right fun hnew =>
        .inr (.inr (.inl ⟨_, p, List.mem_singleton.mp hnew, hp, ofNat_toNat_le p.len⟩))
  | outPacket bs =>
    rcases hostOut_pending h with ht | ⟨p, hp, hlen, ht⟩ <;> rw [ht] at he
    · exact .inl he
    · exact (List.mem_append.mp he).imp_right fun hnew =>
        .inr (.inr (.inr ⟨_, p, List.mem_singleton.mp hnew, hp, (ofNat_toNat_le _).trans hlen⟩))
  | busReset =>
    cases h
    exact (List.mem_append.mp he).imp_right fun hnew => .inr (.inl (List.mem_singleton.mp hnew))

/-- Settles O50, one equation of the transport per clause. -/
theorem hostMovesAtTheReferenceTransport : Obligations.HostMovesAtTheReferenceTransport := by
  intro s
  refine ⟨fun r hnew => ?setup, fun a k hhalt hp ha hfit => ?inData, fun hhalt hp => hostIn_sends hhalt hp rfl,
    fun a k bs hhalt hp hlen hfit hw => ?outData, fun hhalt hp => hostOut_receives hhalt hp le_rfl rfl,
    fun p bs hhalt hp hlong => hostOut_ignored hhalt hp hlong, hostIn_stall, fun bs => hostOut_stall, hostIn_nak,
    fun bs => hostOut_nak, rfl⟩
  case setup =>
    have hj : joinSetup r s.pending = none := joinSetup_of_newest_not_setup hnew
    exact ⟨fun harm => congrArg Host.Outcome.next (hostSetup_opens hj harm),
      fun harm => congrArg Host.Outcome.next (hostSetup_ignored hj harm)⟩
  case inData => exact hostIn_sends hhalt hp (inPayload_aligned ha hfit)
  case outData =>
    have hfit' : a + bs.length ≤ addrLimit s.cfg := le_trans (by omega) hfit
    have hdma := (dmaInWindow_outArmed hp).symm.trans (dmaInWindow_armed hp hlen hfit')
    exact ⟨_, hostOut_receives hhalt hp hlen hdma, Memory.readBytes_writeBytes hw a bs,
      sameOutsideRange_writeBytes s.mem a bs, rfl⟩

/-- Settles O53: `error` leaves both latches set and EP0 armed for SETUP, so the next SETUP packet is possible: it joins
the newest pending event or opens one. -/
theorem hostSeesStallUntilItsNextSetup : Obligations.HostSeesStallUntilItsNextSetup := by
  intro c s bs r
  refine ⟨hostIn_stall rfl, hostOut_stall rfl, ?_⟩
  rcases hostSetup_cases r (error c s) with ⟨earlier, older, -, hroom, hs⟩ | ⟨-, hs⟩ | ⟨hidle, -⟩
  · exact ⟨_, older, congrArg Host.Outcome.next hs, Nat.le_of_lt_succ hroom, List.getLast?_concat, rfl, rfl⟩
  · exact ⟨_, [], congrArg Host.Outcome.next hs, Nat.zero_le 2, List.getLast?_concat, rfl, rfl⟩
  · cases hidle

end Sys2Proof.Machine
end

/-! ## Reset, and the engine with no event to handle -/

section
namespace Sys2Proof.Machine

open Sys2Proof

/-! ### Power-on reset and BUS_RESET (70_reset_and_hazards.md rules R230, R231) -/

/-- Settles O1: the reset state is a constant, and its five clauses are its fields. -/
theorem powerOnResetArmsSetupWithEveryFieldZero : Obligations.PowerOnResetArmsSetupWithEveryFieldZero :=
  ⟨rfl, rfl, rfl, rfl, rfl⟩

/-- Settles O15: the record is replaced whole but for `fatal`, and the one `emit` is the rest of the meaning; it tests
nothing, so there is one case. -/
theorem busResetReinitializesAllButFatal : Obligations.BusResetReinitializesAllButFatal := fun _ => rfl

/-! ### An empty agenda (rule R233) -/

theorem step_idle {s : State} (hc : configOk s.cfg = true) (hf : s.eng.fatal = false) (ha : s.agenda = []) :
    step s = .next s := by
  simp [step, hc, hf, ha]

/-- Settles O8: past the two tests of `step` the agenda alone decides, and an empty one names no move. -/
theorem withoutAMoveTheEngineWaits : Obligations.WithoutAMoveTheEngineWaits := fun _ => step_idle

end Sys2Proof.Machine
end
